-- ==== Sys2Proof/Word.lean ====
section
/-! DEFINITION. The widths of the core's values (00_scope.md R5, R8): every value is an unsigned
integer of a stated width. -/

namespace Sys2Proof

/-- An 8-bit value: a general register, a memory byte, the immediate `nn` (R5, R45). -/
abbrev Byte := BitVec 8

/-- A 16-bit value: an opcode, `pc`, `sp`, `I`, a stack slot (R5, R7). -/
abbrev Word := BitVec 16

/-- The 12-bit address `nnn` of an opcode (R45). -/
abbrev Addr12 := BitVec 12

/-- The number of a general register, 0..15: the fields `x` and `y` (R14, R46). -/
abbrev Reg := Fin 16

/-- The flag register VF, register 15 (R5, R15). -/
abbrev Reg.vf : Reg := 15

end Sys2Proof
end

