-- ==== Sys2Proof/Config.lean ====
section
/-! DEFINITION. The fixed parameters of 00_scope.md R5 and the one free value of R6. -/

namespace Sys2Proof.Config

/-- MEM_SIZE (R5): addresses 0x000 to 0xFFF. -/
abbrev memSize : Nat := 4096

/-- STACK_BASE (R5): the first byte of the call-stack region. -/
abbrev stackBase : Word := 0xEA0#16

/-- STACK_LIMIT (R5): the last byte of the call-stack region. -/
abbrev stackLimit : Word := 0xEFF#16

/-- SP_INIT (R5): STACK_BASE minus one slot, the value of an empty stack. -/
abbrev spInit : Word := 0xE9E#16

/-- SP_MAX (R5): the highest `sp` whose slot lies inside the region. -/
abbrev spMax : Word := 0xEFE#16

/-- STACK_DEPTH (R5): 48 slots of two bytes. -/
abbrev stackDepth : Nat := 48

/-- PC_MAX (R5): the highest `pc` whose two-byte window lies in memory. -/
abbrev pcMax : Word := 0xFFE#16

/-- INSN_BYTES (R5): an instruction is two bytes. -/
abbrev insnBytes : Word := 2#16

/-- SLOT_BYTES (R5): a stack slot is two bytes. -/
abbrev slotBytes : Word := 2#16

/-- The draw `rand` of R6, one byte under no law (92_eei_decisions.md D12). FREE VALUE, no body:
`randomByte k` is the k-th draw a run reads, and nothing is known of it. DESIGN CHOICE, safe: log 1.
That every instance reads this one sequence, so that two fresh instances read equal draws, is the model's
choice too (60_exceptions.md R95 and D12 leave it open). DESIGN CHOICE, unsafe between two runs: log 13. -/
opaque randomByte : Nat → Byte

end Sys2Proof.Config
end

