-- ==== Sys2Proof/Syntax.lean ====
section
/-! DEFINITION. The 21 instructions of spec/opcode_table.json, one constructor a row (00_scope.md R2,
30_encoding.md R44 to R49). Register fields are numbers 0..15, `nn` is 8 bits and `nnn` 12 bits (R46). -/

namespace Sys2Proof

inductive Instr where
  /-- 00EE, RET (R59). -/
  | ret
  /-- 1nnn, JP nnn (R57). -/
  | jp (nnn : Addr12)
  /-- 2nnn, CALL nnn (R58). -/
  | call (nnn : Addr12)
  /-- 3xnn, SE Vx, nn (R61). -/
  | seImm (x : Reg) (nn : Byte)
  /-- 4xnn, SNE Vx, nn (R62). -/
  | sneImm (x : Reg) (nn : Byte)
  /-- 5xy0, SE Vx, Vy (R63). -/
  | seReg (x y : Reg)
  /-- 6xnn, LD Vx, nn (R66). -/
  | ldImm (x : Reg) (nn : Byte)
  /-- 7xnn, ADD Vx, nn (R67). -/
  | addImm (x : Reg) (nn : Byte)
  /-- 8xy0, LD Vx, Vy (R70). -/
  | ldReg (x y : Reg)
  /-- 8xy1, OR Vx, Vy (R71). -/
  | orReg (x y : Reg)
  /-- 8xy2, AND Vx, Vy (R72). -/
  | andReg (x y : Reg)
  /-- 8xy3, XOR Vx, Vy (R73). -/
  | xorReg (x y : Reg)
  /-- 8xy4, ADD Vx, Vy (R74). -/
  | addReg (x y : Reg)
  /-- 8xy5, SUB Vx, Vy (R75). -/
  | subReg (x y : Reg)
  /-- 8xy6, SHR Vx, Vy: `y` is encoded and ignored (R76, R56). -/
  | shrReg (x y : Reg)
  /-- 8xy7, SUBN Vx, Vy (R77). -/
  | subnReg (x y : Reg)
  /-- 8xyE, SHL Vx, Vy: `y` is encoded and ignored (R78, R56). -/
  | shlReg (x y : Reg)
  /-- 9xy0, SNE Vx, Vy (R64). -/
  | sneReg (x y : Reg)
  /-- Annn, LD I, nnn (R68). -/
  | ldI (nnn : Addr12)
  /-- Bnnn, JP V0, nnn (R60). -/
  | jpV0 (nnn : Addr12)
  /-- Cxnn, RND Vx, nn (R69). -/
  | rnd (x : Reg) (nn : Byte)
deriving DecidableEq, Repr

end Sys2Proof
end

