-- ==== Sys2Proof/WellFormed.lean ====
section
/-! DEFINITION. Well-formed operands and instructions (30_encoding.md R46, R56). The checks are on
operands as plain numbers; the types of `Instr` already keep its operands in range, so every `Instr`
passes (Laws/Decode.lean), and the decoder and encoder need no further check. -/

namespace Sys2Proof

/-- An operand as a programmer writes it (R56): a register number, an 8-bit number, an address. -/
inductive Operand where
  | reg (n : Nat)
  | imm (n : Nat)
  | addr (n : Nat)
deriving DecidableEq, Repr

/-- R46: `x` and `y` are 0..15, `nn` is an 8-bit and `nnn` a 12-bit unsigned value. -/
def Operand.wellFormed : Operand → Bool
  | .reg n => decide (n < 16)
  | .imm n => decide (n < 256)
  | .addr n => decide (n < 4096)

/-- The operands an instruction's encoding holds, in the order of R56's syntax. -/
def Instr.operands : Instr → List Operand
  | .ret => []
  | .jp nnn | .call nnn | .ldI nnn | .jpV0 nnn => [.addr nnn.toNat]
  | .seImm x nn | .sneImm x nn | .ldImm x nn | .addImm x nn | .rnd x nn => [.reg x.val, .imm nn.toNat]
  | .seReg x y | .sneReg x y | .ldReg x y | .orReg x y | .andReg x y | .xorReg x y | .addReg x y
  | .subReg x y | .shrReg x y | .subnReg x y | .shlReg x y => [.reg x.val, .reg y.val]

/-- An instruction is well formed when each of its operands fits its field. -/
def Instr.wellFormed (i : Instr) : Bool := i.operands.all Operand.wellFormed

end Sys2Proof
end

