-- ==== Sys2Proof/Decode.lean ====
section
/-! DEFINITION. The fields of an opcode, the two-level decoder, the encoder and the opcode table
(30_encoding.md R43 to R53). Decoding is total: every 16-bit word selects one instruction or is
rejected by name. -/

namespace Sys2Proof

/-! ### The fields of R45 -/

/-- `lead`, op[15:12]. -/
def leadOf (op : Word) : BitVec 4 := op.extractLsb' 12 4

/-- `x`, op[11:8], a register number. -/
def xOf (op : Word) : Reg := (op.extractLsb' 8 4).toFin

/-- `y`, op[7:4], a register number. -/
def yOf (op : Word) : Reg := (op.extractLsb' 4 4).toFin

/-- `n4`, op[3:0]. -/
def n4Of (op : Word) : BitVec 4 := op.extractLsb' 0 4

/-- `nn`, op[7:0]. -/
def nnOf (op : Word) : Byte := op.extractLsb' 0 8

/-- `nnn`, op[11:0]. -/
def nnnOf (op : Word) : Addr12 := op.extractLsb' 0 12

/-! ### The decoder -/

/-- Why a word is rejected: "leading or trailing nibble has no registered handler" (60_exceptions.md
R81). The machine records both as DECODE_ERROR. -/
inductive DecodeError where
  /-- Families 0 (but 00EE), D, E and F have no handler (R48, R51). -/
  | leadingNibble (op : Word)
  /-- In families 5, 8 and 9 this trailing nibble has no handler (R49, R50). -/
  | trailingNibble (op : Word)
deriving DecidableEq, Repr

/-- The second-level table, keyed by the trailing nibble of family 8 (R49). -/
def lookupAlu (op : Word) : Except DecodeError Instr :=
  match (n4Of op).toNat with
  | 0x0 => .ok (.ldReg (xOf op) (yOf op))
  | 0x1 => .ok (.orReg (xOf op) (yOf op))
  | 0x2 => .ok (.andReg (xOf op) (yOf op))
  | 0x3 => .ok (.xorReg (xOf op) (yOf op))
  | 0x4 => .ok (.addReg (xOf op) (yOf op))
  | 0x5 => .ok (.subReg (xOf op) (yOf op))
  | 0x6 => .ok (.shrReg (xOf op) (yOf op))
  | 0x7 => .ok (.subnReg (xOf op) (yOf op))
  | 0xE => .ok (.shlReg (xOf op) (yOf op))
  | _ => .error (.trailingNibble op)

/-- The first-level table, keyed by the leading nibble (R48); families 5 and 9 need n4 = 0 (R50). -/
def lookup (op : Word) : Except DecodeError Instr :=
  match (leadOf op).toNat with
  | 0x1 => .ok (.jp (nnnOf op))
  | 0x2 => .ok (.call (nnnOf op))
  | 0x3 => .ok (.seImm (xOf op) (nnOf op))
  | 0x4 => .ok (.sneImm (xOf op) (nnOf op))
  | 0x5 => if n4Of op = 0#4 then .ok (.seReg (xOf op) (yOf op)) else .error (.trailingNibble op)
  | 0x6 => .ok (.ldImm (xOf op) (nnOf op))
  | 0x7 => .ok (.addImm (xOf op) (nnOf op))
  | 0x8 => lookupAlu op
  | 0x9 => if n4Of op = 0#4 then .ok (.sneReg (xOf op) (yOf op)) else .error (.trailingNibble op)
  | 0xA => .ok (.ldI (nnnOf op))
  | 0xB => .ok (.jpV0 (nnnOf op))
  | 0xC => .ok (.rnd (xOf op) (nnOf op))
  | _ => .error (.leadingNibble op)

/-- Decode an opcode: 00EE first, as an exact match (R47), then the tables (R48). -/
def decode (op : Word) : Except DecodeError Instr :=
  if op = 0x00EE#16 then .ok .ret else lookup op

/-- The 16-bit value of two bytes, the byte at the lower address in bits [15:8] (20_memory.md R30). -/
def wordOfBytes (hi lo : Byte) : Word := hi ++ lo

/-- bits [15:8] of a word, the byte stored at the lower address (R30, R32). -/
def highByte (w : Word) : Byte := w.extractLsb' 8 8

/-- bits [7:0] of a word, the byte stored at the higher address (R30, R32). -/
def lowByte (w : Word) : Byte := w.extractLsb' 0 8

/-- Decode the two bytes at `pc` and `pc + 1` (R43). -/
def decodeBytes (hi lo : Byte) : Except DecodeError Instr := decode (wordOfBytes hi lo)

/-- The instruction this decoder reads from a table word of 16 bits: its bytes in memory order, given
to `decodeBytes`. Every instruction is one 16-bit word (R43), so a longer one is none. -/
def decodeTableWord (nbits w : Nat) : Option Instr :=
  if nbits ≤ 16 then
    let op : Word := BitVec.ofNat 16 (w % 2 ^ nbits)
    (decodeBytes (highByte op) (lowByte op)).toOption
  else none

/-! ### The encoder -/

/-- A register number as the four bits of a field (R44). -/
def regBits (r : Reg) : BitVec 4 := BitVec.ofFin r

/-- `lead nnn` (op16/nnn of R44). -/
def packNnn (lead : BitVec 4) (nnn : Addr12) : Word := lead ++ nnn

/-- `lead x nn` (op16/x,nn of R44). -/
def packXnn (lead : BitVec 4) (x : Reg) (nn : Byte) : Word := (lead ++ regBits x : Byte) ++ nn

/-- `lead x y n4` (op16/x,y of R44). -/
def packXy (lead : BitVec 4) (x y : Reg) (n4 : BitVec 4) : Word :=
  (lead ++ regBits x : Byte) ++ (regBits y ++ n4 : Byte)

/-- The word of an instruction, from the encodings of spec/opcode_table.json. -/
def encode : Instr → Word
  | .ret => 0x00EE#16
  | .jp nnn => packNnn 0x1#4 nnn
  | .call nnn => packNnn 0x2#4 nnn
  | .seImm x nn => packXnn 0x3#4 x nn
  | .sneImm x nn => packXnn 0x4#4 x nn
  | .seReg x y => packXy 0x5#4 x y 0x0#4
  | .ldImm x nn => packXnn 0x6#4 x nn
  | .addImm x nn => packXnn 0x7#4 x nn
  | .ldReg x y => packXy 0x8#4 x y 0x0#4
  | .orReg x y => packXy 0x8#4 x y 0x1#4
  | .andReg x y => packXy 0x8#4 x y 0x2#4
  | .xorReg x y => packXy 0x8#4 x y 0x3#4
  | .addReg x y => packXy 0x8#4 x y 0x4#4
  | .subReg x y => packXy 0x8#4 x y 0x5#4
  | .shrReg x y => packXy 0x8#4 x y 0x6#4
  | .subnReg x y => packXy 0x8#4 x y 0x7#4
  | .shlReg x y => packXy 0x8#4 x y 0xE#4
  | .sneReg x y => packXy 0x9#4 x y 0x0#4
  | .ldI nnn => packNnn 0xA#4 nnn
  | .jpV0 nnn => packNnn 0xB#4 nnn
  | .rnd x nn => packXnn 0xC#4 x nn

/-! ### The opcode table -/

/-- One row of spec/opcode_table.json: a word stands for the row when `word AND mask = pattern`. -/
structure OpcodeRow where
  form : String
  pattern : Word
  mask : Word
deriving DecidableEq, Repr

/-- Does the row claim this word? -/
def OpcodeRow.claims (r : OpcodeRow) (op : Word) : Bool := op &&& r.mask == r.pattern

/-- The rows whose leading nibble alone selects them, and 00EE. -/
def directRows : List OpcodeRow :=
  [⟨"00EE", 0x00EE, 0xFFFF⟩, ⟨"1nnn", 0x1000, 0xF000⟩, ⟨"2nnn", 0x2000, 0xF000⟩,
   ⟨"3xnn", 0x3000, 0xF000⟩, ⟨"4xnn", 0x4000, 0xF000⟩, ⟨"6xnn", 0x6000, 0xF000⟩,
   ⟨"7xnn", 0x7000, 0xF000⟩, ⟨"Annn", 0xA000, 0xF000⟩, ⟨"Bnnn", 0xB000, 0xF000⟩,
   ⟨"Cxnn", 0xC000, 0xF000⟩]

/-- The rows with a fixed trailing nibble. -/
def trailingRows : List OpcodeRow :=
  [⟨"5xy0", 0x5000, 0xF00F⟩, ⟨"8xy0", 0x8000, 0xF00F⟩, ⟨"8xy1", 0x8001, 0xF00F⟩,
   ⟨"8xy2", 0x8002, 0xF00F⟩, ⟨"8xy3", 0x8003, 0xF00F⟩, ⟨"8xy4", 0x8004, 0xF00F⟩,
   ⟨"8xy5", 0x8005, 0xF00F⟩, ⟨"8xy6", 0x8006, 0xF00F⟩, ⟨"8xy7", 0x8007, 0xF00F⟩,
   ⟨"8xyE", 0x800E, 0xF00F⟩, ⟨"9xy0", 0x9000, 0xF00F⟩]

/-- The 21 rows of spec/opcode_table.json. -/
def opcodeTable : List OpcodeRow := directRows ++ trailingRows

/-- The nibble form of an instruction's row (R2). -/
def Instr.form : Instr → String
  | .ret => "00EE"
  | .jp _ => "1nnn"
  | .call _ => "2nnn"
  | .seImm _ _ => "3xnn"
  | .sneImm _ _ => "4xnn"
  | .seReg _ _ => "5xy0"
  | .ldImm _ _ => "6xnn"
  | .addImm _ _ => "7xnn"
  | .ldReg _ _ => "8xy0"
  | .orReg _ _ => "8xy1"
  | .andReg _ _ => "8xy2"
  | .xorReg _ _ => "8xy3"
  | .addReg _ _ => "8xy4"
  | .subReg _ _ => "8xy5"
  | .shrReg _ _ => "8xy6"
  | .subnReg _ _ => "8xy7"
  | .shlReg _ _ => "8xyE"
  | .sneReg _ _ => "9xy0"
  | .ldI _ => "Annn"
  | .jpV0 _ => "Bnnn"
  | .rnd _ _ => "Cxnn"

end Sys2Proof
end

