-- ==== Sys2Proof/Machine/State.lean ====
section
/-! DEFINITION. The architectural state, complete (10_state.md R13), its values at creation (R26), and
the reasons a step can stop. -/

namespace Sys2Proof.Machine

open Sys2Proof

/-- The fault causes of 60_exceptions.md R81 and R82. -/
inductive Cause where
  | decodeError
  | fetchOutOfRange
  | fetchMisaligned
  | stackOverflow
  | stackUnderflow
  | memOutOfRange
deriving DecidableEq, Repr

/-- The two kinds of error (60_exceptions.md R80). -/
inductive FaultKind where
  | decodeError
  | addressFault
deriving DecidableEq, Repr

/-- The run status (10_state.md R23): RUN, or FAULT(cause, fault_pc, fault_op), with `none` for a fault
of the fetch itself (60_exceptions.md R83). -/
inductive Status where
  | run
  | fault (cause : Cause) (faultPc : Word) (faultOp : Option Word)
deriving DecidableEq, Repr

/-- Memory as a sparse list of (address, byte) pairs in one canonical form (see `Memory.wf`); the
address space is 0x000..0xFFF (20_memory.md R28). -/
abbrev Memory := List Host.Cell

/-- What an address that is not listed reads as: memory is "zero-initialized" (10_state.md R26). -/
def Memory.unlisted : Byte := 0x00#8

/-- The addresses rise strictly, from `lo` on. -/
def Memory.risingFrom : Nat → Memory → Bool
  | _, [] => true
  | lo, c :: rest => decide (lo ≤ c.1) && Memory.risingFrom (c.1 + 1) rest

/-- The canonical form: addresses strictly rising, each inside memory, and no entry equal to what an
unlisted address reads as. -/
def Memory.wf (m : Memory) : Bool :=
  Memory.risingFrom 0 m && m.all fun c => decide (c.1 < Config.memSize) && c.2 != Memory.unlisted

/-- The state (10_state.md R13). `V`, `I`, `pc`, `sp`, `mem` and `status` are the spec's and are all it
has; `draws` is the model's own: how many draws of the random source have been read (logs 1, 2
and 13). -/
structure State where
  /-- V[0] .. V[15]; V[15] is VF (R14, R15). -/
  V : Vector Byte 16
  /-- The address register (R17). -/
  I : Word
  /-- The program counter, a byte address (R18). -/
  pc : Word
  /-- The stack pointer, the absolute address of the top slot (R21). -/
  sp : Word
  /-- The 4096 bytes of memory, the call stack among them (R22). -/
  mem : Memory
  /-- The run status (R23). -/
  status : Status
  /-- MODEL'S OWN: the index of the next draw of `Config.randomByte`. -/
  draws : Nat
deriving DecidableEq, Repr

/-- A fresh instance (R26, 70_reset_and_hazards.md R98): every field zero but `sp`, which is SP_INIT;
memory zero; status RUN. `draws` starts at 0 (DESIGN CHOICE, log 2), the same in every fresh
instance (DESIGN CHOICE, unsafe between two runs, log 13). -/
def State.reset : State where
  V := Vector.replicate 16 0x00#8
  I := 0x0000#16
  pc := 0x0000#16
  sp := Config.spInit
  mem := []
  status := .run
  draws := 0

/-- Why the machine stops without a next state. The core's own faults are NOT here: taking one is a next
state whose status is FAULT (60_exceptions.md R88, log 3). -/
inductive Fault where
  /-- Raised by `step` alone, in a state whose status is FAULT: such a state "has no step" (R89, U15 of
  93_implementation_defined.md). Safe: nothing runs on. -/
  | noStepAfterFault
deriving DecidableEq, Repr

/-- Why the model gives no meaning. -/
inductive Refusal where
  /-- Raised by `exec` alone, for an instruction without a meaning yet; no arm of `exec` raises it. Safe. -/
  | notModelled (mnemonic : String)
  /-- Raised by `loadRom` alone: the bytes do not lie inside 0x000..0xFFF, "outside this spec"
  (70_reset_and_hazards.md R99, U12). Safe. Log 7. -/
  | romDoesNotFit
deriving DecidableEq, Repr

end Sys2Proof.Machine
end

