-- ==== Sys2Proof/Machine/Ops.lean ====
section
/-! DEFINITION. The named operations over registers and memory (20_memory.md, 10_state.md), taking a
fault (60_exceptions.md R88), and the ROM loader's effect (70_reset_and_hazards.md R99). -/

namespace Sys2Proof.Machine

open Sys2Proof

/-- What a meaning answers. -/
abbrev Result := Host.Outcome State Fault Refusal

/-! ### Registers -/

/-- `V[r]` (R9, R14). -/
def State.readV (s : State) (r : Reg) : Byte := s.V[r.val]

/-- `V[r] <- b` (R9, R14): no register is hardwired. -/
def State.writeV (s : State) (r : Reg) (b : Byte) : State := { s with V := s.V.set r.val b }

/-- `I <- w` (R17). -/
def State.setI (s : State) (w : Word) : State := { s with I := w }

/-- `pc <- target` (R9); the target is not checked when it is written (30_encoding.md R55). -/
def State.setPc (s : State) (target : Word) : State := { s with pc := target }

/-- `pc <- pc + 2`, the end of a sequential handler (R18, 30_encoding.md R55). -/
def State.advance (s : State) : State := s.setPc (s.pc + Config.insnBytes)

/-- `sp <- w` (R21). -/
def State.setSp (s : State) (w : Word) : State := { s with sp := w }

/-- The draw `rand` of this step (00_scope.md R6), a free value (log 1). -/
def State.draw (s : State) : Byte := Config.randomByte s.draws

/-- The next execution of Cxnn reads another draw (42_register_immediate.md R69, log 1). -/
def State.drawTaken (s : State) : State := { s with draws := s.draws + 1 }

/-! ### Memory -/

/-- The byte at an address: the listed one, or what an unlisted address reads as. -/
def Memory.readByte : Memory → Nat → Byte
  | [], _ => Memory.unlisted
  | c :: rest, a => if c.1 = a then c.2 else Memory.readByte rest a

/-- One cell in front of a list, left out where it would say what an unlisted address reads as. -/
def Memory.consCell (a : Nat) (b : Byte) (m : Memory) : Memory :=
  if b = Memory.unlisted then m else (a, b) :: m

/-- Write one byte, keeping the canonical form. -/
def Memory.writeByte : Memory → Nat → Byte → Memory
  | [], a, b => Memory.consCell a b []
  | c :: rest, a, b =>
    if a < c.1 then Memory.consCell a b (c :: rest)
    else if a = c.1 then Memory.consCell a b rest
    else c :: Memory.writeByte rest a b

/-- The byte at an address of the state's memory, `mem[a]` (R9). -/
def State.readByte (s : State) (a : Nat) : Byte := s.mem.readByte a

/-- Are the `n` bytes from `addr` all inside 0x000..0xFFF (20_memory.md R33)? -/
def inMemory (addr : Word) (n : Nat) : Bool := decide (addr.toNat + n ≤ Config.memSize)

/-- `MemRead(addr, 1)` (20_memory.md R31), with the backstop of R33. -/
def State.memRead8 (s : State) (addr : Word) : Except Cause Byte :=
  if inMemory addr 1 then .ok (s.readByte addr.toNat) else .error .memOutOfRange

/-- `MemRead(addr, 2)`, big-endian (R30, R31), with the backstop of R33. -/
def State.memRead16 (s : State) (addr : Word) : Except Cause Word :=
  if inMemory addr 2 then .ok (wordOfBytes (s.readByte addr.toNat) (s.readByte (addr.toNat + 1)))
  else .error .memOutOfRange

/-- Both bytes of a 16-bit store, high byte first (R32). -/
def State.storeWord (s : State) (a : Nat) (v : Word) : State :=
  { s with mem := (s.mem.writeByte a (highByte v)).writeByte (a + 1) (lowByte v) }

/-- `MemWrite(addr, 2, v)` (R32), with the backstop of R33. -/
def State.memWrite16 (s : State) (addr v : Word) : Except Cause State :=
  if inMemory addr 2 then .ok (s.storeWord addr.toNat v) else .error .memOutOfRange

/-! ### The call stack (20_memory.md R35 to R37): no bounds are checked here -/

/-- The address a push stores to: `sp + 2` (R29, R35). -/
def State.pushAddr (s : State) : Word := s.sp + Config.slotBytes

/-- `push16(v)`: advance `sp` by 2, then store at the new `sp` (R35). -/
def State.push16 (s : State) (v : Word) : Except Cause State :=
  (s.setSp s.pushAddr).memWrite16 s.pushAddr v

/-- `pop16()`: read at `sp`, then retreat `sp` by 2; the slot keeps its bytes (R36). -/
def State.pop16 (s : State) : Except Cause (Word × State) :=
  match s.memRead16 s.sp with
  | .ok v => .ok (v, s.setSp (s.sp - Config.slotBytes))
  | .error c => .error c

/-! ### Faults -/

/-- The code of a cause (60_exceptions.md R82). -/
def Cause.code : Cause → Byte
  | .decodeError => 0x01#8
  | .fetchOutOfRange => 0x11#8
  | .fetchMisaligned => 0x12#8
  | .stackOverflow => 0x13#8
  | .stackUnderflow => 0x14#8
  | .memOutOfRange => 0x15#8

/-- The kind of a cause (R80, R82). -/
def Cause.kind : Cause → FaultKind
  | .decodeError => .decodeError
  | .fetchOutOfRange | .fetchMisaligned | .stackOverflow | .stackUnderflow | .memOutOfRange => .addressFault

/-- `take_fault(F, fault_op)` (R88): nothing of the step is committed, and the status records the cause,
the pc at the start of the step and the opcode, or none (R83). There is no return from a fault (R89):
only a fresh instance, `State.reset`, runs again (R90). -/
def State.takeFault (s : State) (c : Cause) (op : Option Word) : State :=
  { s with status := .fault c s.pc op }

/-- The end of a handler: commit all of its writes, or none and take the fault it raised (R10,
20_memory.md R40, R88). `s` is the state at the start of the step and `op` the opcode. -/
def commit (s : State) (op : Word) : Except Cause State → Result
  | .ok t => .next t
  | .error c => .next (s.takeFault c (some op))

/-! ### The ROM loader (70_reset_and_hazards.md R99) -/

/-- Write raw bytes into memory from an address on. -/
def Memory.writeBytes : Memory → Nat → List Byte → Memory
  | m, _, [] => m
  | m, a, b :: rest => Memory.writeBytes (m.writeByte a b) (a + 1) rest

/-- The host's ROM loader, before the first step (R99, log 6): it "writes raw bytes into memory starting
at a given offset" and nothing else. Bytes that do not lie inside memory are refused (U12, log 7). -/
def loadRom (offset : Nat) (bytes : List Byte) (s : State) : Result :=
  if offset + bytes.length ≤ Config.memSize then
    .next { s with mem := s.mem.writeBytes offset bytes }
  else .refused .romDoesNotFit

end Sys2Proof.Machine
end

