-- ==== Sys2Proof/Machine/Flags.lean ====
section
/-! DEFINITION. The flag computations of family 8 (43_alu.md R74 to R79) and the write of VF. Sums and
comparisons are on exact unsigned values (00_scope.md R8). -/

namespace Sys2Proof.Machine

open Sys2Proof

/-- A flag as the byte VF takes, 0x01 or 0x00 (10_state.md R15). -/
def flagByte (f : Bool) : Byte := if f then 0x01#8 else 0x00#8

/-- The carry of an 8-bit sum: 1 if the exact sum is above 255 (R74). -/
def carryFlag (a b : Byte) : Bool := decide (a.toNat + b.toNat > 255)

/-- NOT borrow of `a - b`: 1 if a >= b (R75, R77). -/
def noBorrowFlag (a b : Byte) : Bool := decide (a.toNat ≥ b.toNat)

/-- The bit a right shift by one drops: bit 0 (R76). -/
def lsbFlag (a : Byte) : Bool := a[0]

/-- The bit a left shift by one drops: bit 7 (R78). -/
def msbFlag (a : Byte) : Bool := a[7]

/-- `V[x] <- result`, then `V[15] <- flag`: the flag is the last write, so it is what VF holds even when
x = 15 (00_scope.md R11, 92_eei_decisions.md D7). -/
def State.writeResultFlag (s : State) (x : Reg) (result : Byte) (flag : Bool) : State :=
  (s.writeV x result).writeV Reg.vf (flagByte flag)

end Sys2Proof.Machine
end

