-- ==== Sys2Proof/Machine/Operands.lean ====
section
/-! DEFINITION. The operand forms of the handlers (30_encoding.md R45, R46): registers, the immediate
`nn`, the address `nnn`, and the computed target of Bnnn. Nothing is sign-extended or scaled. -/

namespace Sys2Proof.Machine

open Sys2Proof

/-- `zext_16(nnn)`: the address written to pc or I (R46). -/
def addrOperand (nnn : Addr12) : Word := nnn.setWidth 16

/-- `zext_16(V[r])`: a register added to an address (R46). -/
def State.indexOperand (s : State) (r : Reg) : Word := (s.readV r).setWidth 16

/-- The target of Bnnn, `zext_16(nnn) + zext_16(V[0])`: 0x000..0x10FE, exact in 16 bits, never masked
(40_control_transfer.md R60, 92_eei_decisions.md D13). -/
def State.computedTarget (s : State) (nnn : Addr12) : Word := addrOperand nnn + s.indexOperand 0

/-- The return address a CALL pushes: pc + 2 (40_control_transfer.md R58). -/
def State.returnAddr (s : State) : Word := s.pc + Config.insnBytes

/-- The end of a skip handler: pc + 4 when the condition holds and pc + 2 otherwise (30_encoding.md R55).
The skipped word is neither fetched nor decoded (41_skip.md R65). -/
def State.skipIf (s : State) (cond : Bool) : State :=
  s.setPc (if cond then s.pc + 4#16 else s.pc + Config.insnBytes)

/-- The stack is full: 48 slots are in use (40_control_transfer.md R58, D5). -/
def State.stackFull (s : State) : Bool := decide (Config.spMax ≤ s.sp)

/-- The stack is empty (40_control_transfer.md R59, D6). -/
def State.stackEmpty (s : State) : Bool := decide (s.sp < Config.stackBase)

end Sys2Proof.Machine
end

