-- ==== Sys2Proof/Machine/Alu.lean ====
section
/-! DEFINITION. Register-register operations: 8xy0 to 8xy7 and 8xyE (43_alu.md R70 to R79). All are
sequential. The operands are read before any write (00_scope.md R10). -/

namespace Sys2Proof.Machine

open Sys2Proof

/-- LD Vx, Vy (R70). -/
def execLdReg (x y : Reg) (s : State) : Result := .next (s.writeV x (s.readV y)).advance

/-- OR Vx, Vy (R71): no flag. -/
def execOrReg (x y : Reg) (s : State) : Result := .next (s.writeV x (s.readV x ||| s.readV y)).advance

/-- AND Vx, Vy (R72): no flag. -/
def execAndReg (x y : Reg) (s : State) : Result := .next (s.writeV x (s.readV x &&& s.readV y)).advance

/-- XOR Vx, Vy (R73): no flag. -/
def execXorReg (x y : Reg) (s : State) : Result := .next (s.writeV x (s.readV x ^^^ s.readV y)).advance

/-- ADD Vx, Vy (R74): VF is the carry. -/
def execAddReg (x y : Reg) (s : State) : Result :=
  .next (s.writeResultFlag x (s.readV x + s.readV y) (carryFlag (s.readV x) (s.readV y))).advance

/-- SUB Vx, Vy (R75): VF is NOT borrow. -/
def execSubReg (x y : Reg) (s : State) : Result :=
  .next (s.writeResultFlag x (s.readV x - s.readV y) (noBorrowFlag (s.readV x) (s.readV y))).advance

/-- SHR Vx, Vy (R76): V[x] is shifted, `y` is not read; VF is the old bit 0. -/
def execShrReg (x _y : Reg) (s : State) : Result :=
  .next (s.writeResultFlag x (s.readV x >>> 1) (lsbFlag (s.readV x))).advance

/-- SUBN Vx, Vy (R77): VF is NOT borrow of V[y] - V[x]. -/
def execSubnReg (x y : Reg) (s : State) : Result :=
  .next (s.writeResultFlag x (s.readV y - s.readV x) (noBorrowFlag (s.readV y) (s.readV x))).advance

/-- SHL Vx, Vy (R78): V[x] is shifted, `y` is not read; VF is the old bit 7. -/
def execShlReg (x _y : Reg) (s : State) : Result :=
  .next (s.writeResultFlag x (s.readV x <<< 1) (msbFlag (s.readV x))).advance

end Sys2Proof.Machine
end

