-- ==== Sys2Proof/Machine/ControlTransfer.lean ====
section
/-! DEFINITION. Control transfer: 1nnn, 2nnn, 00EE, Bnnn (40_control_transfer.md). Each handler sets pc
and does not also advance it (30_encoding.md R55); none writes a general register. -/

namespace Sys2Proof.Machine

open Sys2Proof

/-- JP nnn (R57). -/
def execJp (nnn : Addr12) (s : State) : Result := .next (s.setPc (addrOperand nnn))

/-- CALL nnn (R58): STACK_OVERFLOW on a full stack, before any write; else push pc + 2 and jump. -/
def execCall (nnn : Addr12) (s : State) : Result :=
  commit s (encode (.call nnn)) <|
    if s.stackFull then .error .stackOverflow
    else (s.push16 s.returnAddr).map fun t => t.setPc (addrOperand nnn)

/-- RET (R59): STACK_UNDERFLOW on an empty stack, before the pop; else pop the slot into pc. -/
def execRet (s : State) : Result :=
  commit s (encode .ret) <|
    if s.stackEmpty then .error .stackUnderflow
    else s.pop16.map fun p => p.2.setPc p.1

/-- JP V0, nnn (R60): the register is V[0], whatever the x field holds. -/
def execJpV0 (nnn : Addr12) (s : State) : Result := .next (s.setPc (s.computedTarget nnn))

end Sys2Proof.Machine
end

