-- ==== Sys2Proof/Machine/RegisterImmediate.lean ====
section
/-! DEFINITION. Register-immediate operations: 6xnn, 7xnn, Annn, Cxnn (42_register_immediate.md). All
are sequential, and none raises anything. -/

namespace Sys2Proof.Machine

open Sys2Proof

/-- LD Vx, nn (R66). -/
def execLdImm (x : Reg) (nn : Byte) (s : State) : Result := .next (s.writeV x nn).advance

/-- ADD Vx, nn (R67): wraps modulo 2^8, no flag. -/
def execAddImm (x : Reg) (nn : Byte) (s : State) : Result := .next (s.writeV x (s.readV x + nn)).advance

/-- LD I, nnn (R68). -/
def execLdI (nnn : Addr12) (s : State) : Result := .next (s.setI (addrOperand nnn)).advance

/-- RND's effect with a given draw `r` (R69). -/
def rndWith (r : Byte) (x : Reg) (nn : Byte) (s : State) : State := (s.writeV x (r &&& nn)).advance

/-- RND Vx, nn (R69): reads the step's draw once; the old V[x] is not read. -/
def execRnd (x : Reg) (nn : Byte) (s : State) : Result := .next (rndWith s.draw x nn s).drawTaken

end Sys2Proof.Machine
end

