-- ==== Sys2Proof/Machine/Fetch.lean ====
section
/-! DEFINITION. The fetch of 20_memory.md R38 and the decode of 30_encoding.md R47 to R53, in the order
of a step's stages (60_exceptions.md R87), and where a host places an instruction. -/

namespace Sys2Proof.Machine

open Sys2Proof

/-- `fetch()` (R38): the range is checked before the alignment, so pc = 0xFFF is out of range (D10). -/
def State.fetch (s : State) : Except Cause Word :=
  if Config.pcMax < s.pc then .error .fetchOutOfRange
  else if s.pc[0] then .error .fetchMisaligned
  else s.memRead16 s.pc

/-- The instruction this step executes, or the cause of its fault with the opcode fetched, none where
the fetch itself faulted (R54, R83). -/
def State.fetchInstr (s : State) : Except (Cause × Option Word) Instr :=
  match s.fetch with
  | .error c => .error (c, none)
  | .ok op =>
    match decode op with
    | .error _ => .error (.decodeError, some op)
    | .ok i => .ok i

/-- An instruction's two bytes at pc, high byte first (20_memory.md R30), where the next step fetches
them. Where pc is beyond the window of R38 no step fetches anything and nothing is placed. -/
def State.placeWord (s : State) (op : Word) : State :=
  if Config.pcMax < s.pc then s else s.storeWord s.pc.toNat op

end Sys2Proof.Machine
end

