-- ==== Sys2Proof/Machine/Step.lean ====
section
/-! DEFINITION. One step of the engine, "execute one instruction" (30_encoding.md R54). -/

namespace Sys2Proof.Machine

open Sys2Proof

/-- A FAULT state has no step (60_exceptions.md R89). A RUN state fetches and decodes, and takes the
fault either raised (R88), or runs the handler. -/
def step (s : State) : Host.Outcome State Fault Refusal :=
  match s.status with
  | .fault _ _ _ => .fault .noStepAfterFault
  | .run =>
    match s.fetchInstr with
    | .error f => .next (s.takeFault f.1 f.2)
    | .ok i => exec i s

/-- The state with a table word stored where the next step fetches: two bytes at pc, big-endian
(20_memory.md R30, R38). Bits above `nbits` are 0. It stands for the ROM load of log 6. -/
def State.withFetchWord (s : State) (nbits w : Nat) : State :=
  s.placeWord (BitVec.ofNat 16 (w % 2 ^ nbits))

end Sys2Proof.Machine
end

