-- ==== Sys2Proof/Safety.lean ====
section
/-! DEFINITION. What a run is, how it ends (70_reset_and_hazards.md R105), the invariant of the state,
and what each instruction may read and write (10_state.md R16): the terms the statements use. -/

namespace Sys2Proof.Machine

open Sys2Proof

/-! ### Runs -/

/-- A creation state: a fresh instance after the ROM loader has run (70_reset_and_hazards.md R98, R99).
All start at the same draw (log 13). -/
def State.Creation (s : State) : Prop := ∃ offset bytes, loadRom offset bytes State.reset = .next s

/-- `n` steps, stopping where the machine stops. It is `Host.Core.run` of this core, on the machine's own
types (Laws/Ops.lean, `runSteps_eq_core_run`). -/
def runSteps : Nat → State → Host.Outcome State Fault Refusal
  | 0, s => .next s
  | k + 1, s =>
    match step s with
    | .next s' => runSteps k s'
    | .fault r => .fault r
    | .refused r => .refused r

/-- `s` is the state after `n` steps from a creation state. -/
def State.ReachedIn (n : Nat) (s : State) : Prop :=
  ∃ s₀ : State, s₀.Creation ∧ runSteps n s₀ = .next s

/-- R105.1, the one normal end: a RUN state at a JP to its own address. -/
def State.IdleEnd (s : State) : Prop :=
  s.status = .run ∧ s.pc[0] = false ∧ s.pc ≤ Config.pcMax ∧
    s.memRead16 s.pc = .ok (0x1000#16 ||| s.pc)

/-- R105.2: the status is FAULT. Never a normal end (60_exceptions.md R89). -/
def State.FaultEnd (s : State) : Prop := s.status ≠ .run

/-! ### The invariant -/

/-- The 49 values of `sp`, from empty to 48 slots full (10_state.md R21). -/
def legalSp (w : Word) : Prop :=
  ∃ k : Nat, k ≤ Config.stackDepth ∧ w.toNat = Config.spInit.toNat + 2 * k

/-- What a FAULT status says of the state that holds it (60_exceptions.md R82, R83, R88): the pc and sp
are the faulting step's own, and the cause's condition holds of them. MEM_OUT_OF_RANGE never occurs
(20_memory.md R33). -/
def State.FaultRecordSound (s : State) : Prop :=
  match s.status with
  | .run => True
  | .fault c p op =>
    p = s.pc ∧
    match c with
    | .decodeError => ∃ w e, op = some w ∧ s.memRead16 s.pc = .ok w ∧ decode w = .error e
    | .fetchOutOfRange => op = none ∧ Config.pcMax < s.pc
    | .fetchMisaligned => op = none ∧ s.pc ≤ Config.pcMax ∧ s.pc[0] = true
    | .stackOverflow => (∃ nnn, op = some (encode (.call nnn))) ∧ s.sp = Config.spMax
    | .stackUnderflow => op = some 0x00EE#16 ∧ s.sp = Config.spInit
    | .memOutOfRange => False

/-- The invariant of the state: memory in canonical form, `sp` one of its 49 values (R21), `I` inside
0..0xFFF (R17), and a sound fault record. -/
structure State.Inv (s : State) : Prop where
  mem_wf : s.mem.wf = true
  sp_legal : legalSp s.sp
  i_range : s.I.toNat ≤ 0xFFF
  record : s.FaultRecordSound

/-! ### Reads and writes by instruction (R16) -/

/-- The general registers an instruction writes. -/
def writesV : Instr → List Reg
  | .ret | .jp _ | .call _ | .seImm _ _ | .sneImm _ _ | .seReg _ _ | .sneReg _ _ | .ldI _ | .jpV0 _ => []
  | .ldImm x _ | .addImm x _ | .rnd x _ | .ldReg x _ | .orReg x _ | .andReg x _ | .xorReg x _ => [x]
  | .addReg x _ | .subReg x _ | .shrReg x _ | .subnReg x _ | .shlReg x _ => [x, Reg.vf]

/-- The general registers an instruction reads. -/
def readsV : Instr → List Reg
  | .ret | .jp _ | .call _ | .ldI _ | .ldImm _ _ | .rnd _ _ => []
  | .jpV0 _ => [0]
  | .seImm x _ | .sneImm x _ | .addImm x _ | .shrReg x _ | .shlReg x _ => [x]
  | .ldReg _ y => [y]
  | .seReg x y | .sneReg x y | .orReg x y | .andReg x y | .xorReg x y | .addReg x y | .subReg x y
  | .subnReg x y => [x, y]

/-- `t` is `s` but for the general registers listed and the pc: every other register, `I`, `sp`, every
byte of memory and the status are as before. -/
structure State.KeepsBut (s : State) (regs : List Reg) (t : State) : Prop where
  regs : ∀ r, r ∉ regs → t.readV r = s.readV r
  i : t.I = s.I
  sp : t.sp = s.sp
  mem : ∀ a, t.readByte a = s.readByte a
  status : t.status = s.status

end Sys2Proof.Machine
end

