-- ==== Sys2Proof/Certificates/Slice0/Obligations.lean ====
section
/-! DEFINITION. The statements for the provers. "D<n>" is a decision of spec/92_eei_decisions.md, the
spec's own choice; "log <n>" is notes/assumptions/<n>.md. -/

open Sys2Proof Sys2Proof.Machine

/-! ### Creation, runs and the invariant -/

/-- 10_state.md R26 and 70_reset_and_hazards.md R98: the values at creation. `status` is RUN by D11 and
`sp` is an absolute address by D3, the spec's own choices. -/
def Obligations.CreationValues : Prop :=
  (∀ r : Reg, State.reset.readV r = 0x00#8) ∧ State.reset.I = 0x0000#16 ∧ State.reset.pc = 0x0000#16 ∧
  State.reset.sp = 0x0E9E#16 ∧ (∀ a, State.reset.readByte a = 0x00#8) ∧ State.reset.status = .run

/-- 70_reset_and_hazards.md R99 (D16, log 6): a load that fits writes its bytes at `offset ..
offset + len - 1` and nothing else; one that does not fit is refused (U12, log 7). -/
def Obligations.RomLoaderWritesMemoryOnly : Prop :=
  ∀ (offset : Nat) (bytes : List Byte) (s : State), s.mem.wf = true →
    (offset + bytes.length ≤ 4096 → ∃ t, loadRom offset bytes s = .next t ∧
      (∀ k (h : k < bytes.length), t.readByte (offset + k) = bytes[k]) ∧
      (∀ a, a < offset ∨ offset + bytes.length ≤ a → t.readByte a = s.readByte a) ∧
      t.V = s.V ∧ t.I = s.I ∧ t.pc = s.pc ∧ t.sp = s.sp ∧ t.status = s.status) ∧
    (4096 < offset + bytes.length → loadRom offset bytes s = .refused .romDoesNotFit)

/-- The invariant holds of a fresh instance. -/
def Obligations.FreshInstanceMeetsInv : Prop := State.reset.Inv

/-- Every step keeps the invariant: memory in canonical form, `sp` one of its 49 values (10_state.md
R21), `I` inside 0..0xFFF (R17), and a FAULT status whose record is true of the state (R82, R83). -/
def Obligations.StepKeepsInv : Prop := ∀ s t : State, s.Inv → step s = .next t → t.Inv

/-- The run form of StepKeepsInv: from every creation state, whatever bytes the ROM loader wrote (R99),
every state a run reaches meets the invariant; MEM_OUT_OF_RANGE, in particular, is never raised
(20_memory.md R33). -/
def Obligations.ReachedStatesMeetInv : Prop := ∀ (n : Nat) (s : State), s.ReachedIn n → s.Inv

/-- 60_exceptions.md R89, 70_reset_and_hazards.md R105 (D18; the stop is the model's, log 3): from any
RUN state a run of `n` steps either has a next state, or it stopped because an earlier state of it has
status FAULT. It is never refused. -/
def Obligations.RunStopsOnlyAfterFault : Prop :=
  ∀ (n : Nat) (s : State), s.status = .run →
    (∃ t, runSteps n s = .next t) ∨
    (runSteps n s = .fault .noStepAfterFault ∧ ∃ m t, m < n ∧ runSteps m s = .next t ∧ t.FaultEnd)

/-! ### Encoding -/

/-- 30_encoding.md R45: the fields of an opcode, by their bits and by the two bytes. -/
def Obligations.OpcodeFields : Prop :=
  (∀ op : Word,
    (leadOf op).toNat = op.toNat / 4096 ∧ (xOf op).val = op.toNat / 256 % 16 ∧
    (yOf op).val = op.toNat / 16 % 16 ∧ (n4Of op).toNat = op.toNat % 16 ∧
    (nnOf op).toNat = op.toNat % 256 ∧ (nnnOf op).toNat = op.toNat % 4096 ∧
    nnnOf op = op.extractLsb' 8 4 ++ op.extractLsb' 0 8) ∧
  (∀ hi lo : Byte,
    (leadOf (wordOfBytes hi lo)).toNat = hi.toNat / 16 ∧ (xOf (wordOfBytes hi lo)).val = hi.toNat % 16 ∧
    (yOf (wordOfBytes hi lo)).val = lo.toNat / 16 ∧ (n4Of (wordOfBytes hi lo)).toNat = lo.toNat % 16 ∧
    nnOf (wordOfBytes hi lo) = lo)

/-- Decode and encode agree: for every instruction, with every operand at every value its field admits,
decoding its word gives it back, through the word's two bytes too. -/
def Obligations.DecodeOfEncode : Prop :=
  ∀ i : Instr, decode (encode i) = .ok i ∧ decodeBytes (highByte (encode i)) (lowByte (encode i)) = .ok i

/-- The other direction: a word that decodes is the word of its instruction, so no two words decode to
one `Instr`. This last is the model's choice (log 12): SHR and SHL keep the y that they ignore as an
operand, where the spec says that every y selects the same instruction (43_alu.md R76, R78). -/
def Obligations.EncodeOfDecode : Prop := ∀ (op : Word) (i : Instr), decode op = .ok i → encode i = op

/-- 30_encoding.md R52: DecodeError for exactly these opcodes. Families 5 and 9 rest on D8 and family 0
on D9, the spec's own choices. -/
def Obligations.DecodeErrorsExactly : Prop :=
  ∀ op : Word, (∃ e, decode op = .error e) ↔
    (op.toNat / 4096 = 0 ∧ op ≠ 0x00EE#16) ∨
    (op.toNat / 4096 = 5 ∧ op.toNat % 16 ≠ 0) ∨
    (op.toNat / 4096 = 8 ∧ (op.toNat % 16 ∈ [8, 9, 10, 11, 12, 13, 15])) ∨
    (op.toNat / 4096 = 9 ∧ op.toNat % 16 ≠ 0) ∨
    13 ≤ op.toNat / 4096

/-- Every word selects exactly one row of the opcode table, its instruction's, or no row when it raises
DecodeError (30_encoding.md R52, "Decoding is total"; rows of opcode_table.json). -/
def Obligations.DecodeSelectsOneTableRow : Prop :=
  ∀ op : Word, match decode op with
    | .ok i => (opcodeTable.filter (·.claims op)).map (·.form) = [i.form]
    | .error _ => opcodeTable.filter (·.claims op) = []

/-- 30_encoding.md R49: the second-level table, for every x and y and all 16 trailing nibbles. -/
def Obligations.FamilyEightTable : Prop :=
  ∀ x y : Reg,
    let word (n : BitVec 4) : Word := (0x8#4 ++ regBits x : Byte) ++ (regBits y ++ n : Byte)
    decode (word 0x0#4) = .ok (.ldReg x y) ∧ decode (word 0x1#4) = .ok (.orReg x y) ∧
    decode (word 0x2#4) = .ok (.andReg x y) ∧ decode (word 0x3#4) = .ok (.xorReg x y) ∧
    decode (word 0x4#4) = .ok (.addReg x y) ∧ decode (word 0x5#4) = .ok (.subReg x y) ∧
    decode (word 0x6#4) = .ok (.shrReg x y) ∧ decode (word 0x7#4) = .ok (.subnReg x y) ∧
    decode (word 0xE#4) = .ok (.shlReg x y) ∧
    ∀ n ∈ [0x8#4, 0x9#4, 0xA#4, 0xB#4, 0xC#4, 0xD#4, 0xF#4],
      decode (word n) = .error (.trailingNibble (word n))

/-- Words written out from the spec's encodings (40_control_transfer.md to 43_alu.md), one or more of
each family, that is of each leading nibble that decodes, 0 to C, and the neighbours of 00EE. -/
def Obligations.WrittenWordsDecode : Prop :=
  decode 0b0000000011101110#16 = .ok .ret ∧ decode 0b0001001000110100#16 = .ok (.jp 0x234) ∧
  decode 0b0010101010111100#16 = .ok (.call 0xABC) ∧ decode 0b0011001000000101#16 = .ok (.seImm 2 0x05) ∧
  decode 0b0100001000000101#16 = .ok (.sneImm 2 0x05) ∧ decode 0b0101000100110000#16 = .ok (.seReg 1 3) ∧
  decode 0b0110101000000101#16 = .ok (.ldImm 10 0x05) ∧ decode 0b0111101000001010#16 = .ok (.addImm 10 0x0A) ∧
  decode 0b1000000000010001#16 = .ok (.orReg 0 1) ∧ decode 0b1000101010110111#16 = .ok (.subnReg 10 11) ∧
  decode 0b1001000100110000#16 = .ok (.sneReg 1 3) ∧ decode 0b1010000100100011#16 = .ok (.ldI 0x123) ∧
  decode 0b1011000000010000#16 = .ok (.jpV0 0x010) ∧ decode 0b1100001100001111#16 = .ok (.rnd 3 0x0F) ∧
  decode 0x00EF#16 = .error (.leadingNibble 0x00EF#16) ∧ decode 0x00E0#16 = .error (.leadingNibble 0x00E0#16)

/-- An instruction placed at a fetchable pc is the one the next step runs: storing the bytes big-endian,
fetching, decoding and dispatching lose nothing (20_memory.md R30, R38; 30_encoding.md R54). -/
def Obligations.PlacedInstructionRuns : Prop :=
  ∀ (i : Instr) (s : State), s.status = .run → s.mem.wf = true → s.pc ≤ 0xFFE#16 → s.pc[0] = false →
    step (s.withFetchWord 16 (encode i).toNat) = exec i (s.withFetchWord 16 (encode i).toNat) ∧
    decodeTableWord 16 (encode i).toNat = some i

/-! ### The step and faults -/

/-- 30_encoding.md R54: in a RUN state whose pc is fetchable, where the two bytes at pc decode to `i`,
the step is `exec i`; the pc is moved by the handler alone. -/
def Obligations.StepRunsDecodedInstruction : Prop :=
  ∀ (s : State) (i : Instr), s.status = .run → s.pc.toNat ≤ 0xFFE → s.pc.toNat % 2 = 0 →
    decodeBytes (s.readByte s.pc.toNat) (s.readByte (s.pc.toNat + 1)) = .ok i → step s = exec i s

/-- 20_memory.md R38 and 60_exceptions.md R87, by D4 and D10, the spec's own choices: an out-of-range pc
is FETCH_OUT_OF_RANGE, odd or not; an odd pc inside memory is FETCH_MISALIGNED; no opcode is recorded. -/
def Obligations.StepTakesFetchFault : Prop :=
  ∀ s : State, s.status = .run →
    (0xFFE < s.pc.toNat → step s = .next { s with status := .fault .fetchOutOfRange s.pc none }) ∧
    (s.pc.toNat ≤ 0xFFE → s.pc.toNat % 2 = 1 →
      step s = .next { s with status := .fault .fetchMisaligned s.pc none })

/-- 60_exceptions.md R81, R83 (recorded values by D10): a fetched word without a handler raises
DECODE_ERROR and records the word. -/
def Obligations.StepTakesDecodeFault : Prop :=
  ∀ (s : State) (e : DecodeError), s.status = .run → s.pc.toNat ≤ 0xFFE → s.pc.toNat % 2 = 0 →
    decodeBytes (s.readByte s.pc.toNat) (s.readByte (s.pc.toNat + 1)) = .error e →
    step s = .next { s with
      status := .fault .decodeError s.pc (some (wordOfBytes (s.readByte s.pc.toNat) (s.readByte (s.pc.toNat + 1)))) }

/-- 60_exceptions.md R89, "A state whose status is FAULT has no step". That the model answers
Outcome.fault there is its own choice, log 3. -/
def Obligations.FaultStateHasNoStep : Prop :=
  ∀ (s : State) (c : Cause) (p : Word) (op : Option Word), s.status = .fault c p op →
    step s = .fault .noStepAfterFault

/-- Every RUN state has a step, and only a RUN state has one; the core never refuses an instruction. -/
def Obligations.RunStatesAlwaysStep : Prop :=
  ∀ s : State, ((∃ t, step s = .next t) ↔ s.status = .run) ∧ ∀ r, step s ≠ .refused r

/-- 60_exceptions.md R88 (D11): a step that raises commits nothing: V, I, pc, sp and memory are as at its
start, and the status records the cause, that pc, and an opcode or none. -/
def Obligations.FaultCommitsNothing : Prop :=
  ∀ s t : State, step s = .next t → t.status ≠ .run →
    t.V = s.V ∧ t.I = s.I ∧ t.pc = s.pc ∧ t.sp = s.sp ∧ t.mem = s.mem ∧ t.draws = s.draws ∧
    ∃ c op, t.status = .fault c s.pc op

/-- 60_exceptions.md R83 (D10): the recorded opcode is the word fetched at pc, and there is none exactly
for the two faults of the fetch. -/
def Obligations.FaultRecordsFetchedOpcode : Prop :=
  ∀ (s t : State) (c : Cause) (p : Word) (op : Option Word),
    step s = .next t → t.status = .fault c p op →
    (op = none ↔ c = .fetchOutOfRange ∨ c = .fetchMisaligned) ∧
    ∀ w, op = some w → s.memRead16 s.pc = .ok w

/-- 60_exceptions.md R84: of the handlers only 2nnn and 00EE raise anything: STACK_OVERFLOW on a full
stack, STACK_UNDERFLOW on an empty one (D5, D6), and MEM_OUT_OF_RANGE where a pop's slot leaves memory,
which no `sp` a run reaches allows (20_memory.md R33, D17). -/
def Obligations.FaultsByInstruction : Prop :=
  ∀ (i : Instr) (s t : State) (c : Cause) (p : Word) (op : Option Word),
    s.status = .run → exec i s = .next t → t.status = .fault c p op →
    ((∃ nnn, i = .call nnn) ∧ c = .stackOverflow ∧ 0xEFE#16 ≤ s.sp) ∨
    (i = .ret ∧ c = .stackUnderflow ∧ s.sp < 0xEA0#16) ∨
    (i = .ret ∧ c = .memOutOfRange ∧ 0xFFE#16 < s.sp)

/-- 60_exceptions.md R80, R82: each cause's code and kind. The codes and the sub-causes are the spec's
own, D10. -/
def Obligations.CauseCodesAndKinds : Prop :=
  Cause.code .decodeError = 0x01#8 ∧ Cause.code .fetchOutOfRange = 0x11#8 ∧
  Cause.code .fetchMisaligned = 0x12#8 ∧ Cause.code .stackOverflow = 0x13#8 ∧
  Cause.code .stackUnderflow = 0x14#8 ∧ Cause.code .memOutOfRange = 0x15#8 ∧
  (∀ c d : Cause, c.code = d.code → c = d) ∧
  ∀ c : Cause, c.kind = .decodeError ↔ c = .decodeError

/-! ### Control transfer (40_control_transfer.md) -/

/-- JP nnn (R57): pc is nnn and nothing else changes; a jump to itself leaves the state; an odd target
faults at the next step's fetch (by D4 and D10), not at this one. -/
def Obligations.JpSetsPc : Prop :=
  ∀ (nnn : Addr12) (s : State),
    decode (0x1#4 ++ nnn : Word) = .ok (.jp nnn) ∧
    ∃ t, exec (.jp nnn) s = .next t ∧ t.pc.toNat = nnn.toNat ∧ s.KeepsBut [] t ∧
      (s.pc.toNat = nnn.toNat → t = s) ∧
      (s.status = .run → nnn.toNat % 2 = 1 → nnn ≠ 0xFFF#12 →
        step t = .next { t with status := .fault .fetchMisaligned t.pc none }) ∧
      (s.status = .run → nnn = 0xFFF#12 →
        step t = .next { t with status := .fault .fetchOutOfRange t.pc none })

/-- CALL nnn (R58): with a free slot, `sp` rises by 2, pc + 2 is stored there high byte first, pc is nnn,
and every other byte and register is unchanged. On a full stack it raises STACK_OVERFLOW and changes
only the status (the check is the spec's own choice, D5). -/
def Obligations.CallPushesAndJumps : Prop :=
  ∀ (nnn : Addr12) (s : State),
    decode (0x2#4 ++ nnn : Word) = .ok (.call nnn) ∧
    (s.mem.wf = true → s.sp < 0xEFE#16 → ∃ t, exec (.call nnn) s = .next t ∧
      t.pc.toNat = nnn.toNat ∧ t.sp.toNat = s.sp.toNat + 2 ∧
      t.readByte (s.sp.toNat + 2) = (s.pc + 2#16).extractLsb' 8 8 ∧
      t.readByte (s.sp.toNat + 3) = (s.pc + 2#16).extractLsb' 0 8 ∧
      (∀ a, a ≠ s.sp.toNat + 2 → a ≠ s.sp.toNat + 3 → t.readByte a = s.readByte a) ∧
      (∀ r, t.readV r = s.readV r) ∧ t.I = s.I ∧ t.status = s.status) ∧
    (0xEFE#16 ≤ s.sp → exec (.call nnn) s =
      .next { s with status := .fault .stackOverflow s.pc (some (0x2#4 ++ nnn : Word)) })

/-- RET (R59): the top slot's two bytes, high first, become pc; `sp` falls by 2; the slot keeps its bytes
and nothing else changes. On an empty stack it raises STACK_UNDERFLOW and changes only the status (the
check is the spec's own choice, D6). Above 0xFFE, where no run's `sp` is, the slot leaves memory and the
backstop of 20_memory.md R33 (D17) is raised. -/
def Obligations.RetPopsIntoPc : Prop :=
  decode 0x00EE#16 = .ok .ret ∧
  ∀ s : State,
    (0xEA0#16 ≤ s.sp → s.sp ≤ 0xFFE#16 → ∃ t, exec .ret s = .next t ∧
      t.pc = s.readByte s.sp.toNat ++ s.readByte (s.sp.toNat + 1) ∧ t.sp.toNat = s.sp.toNat - 2 ∧
      (∀ a, t.readByte a = s.readByte a) ∧ (∀ r, t.readV r = s.readV r) ∧ t.I = s.I ∧
      t.status = s.status) ∧
    (s.sp < 0xEA0#16 →
      exec .ret s = .next { s with status := .fault .stackUnderflow s.pc (some 0x00EE#16) }) ∧
    (0xFFE#16 < s.sp →
      exec .ret s = .next { s with status := .fault .memOutOfRange s.pc (some 0x00EE#16) })

/-- JP V0, nnn (R60): pc is nnn + V[0], exact, whatever the x field holds; not masked to 12 bits (the
spec's own choice, D13). A target the fetch refuses faults at the next step (D4). -/
def Obligations.JpV0AddsV0 : Prop :=
  ∀ (nnn : Addr12) (s : State),
    decode (0xB#4 ++ nnn : Word) = .ok (.jpV0 nnn) ∧
    ∃ t, exec (.jpV0 nnn) s = .next t ∧ t.pc.toNat = nnn.toNat + (s.readV 0).toNat ∧ s.KeepsBut [] t ∧
      (s.status = .run → 0xFFE < nnn.toNat + (s.readV 0).toNat →
        step t = .next { t with status := .fault .fetchOutOfRange t.pc none }) ∧
      (s.status = .run → nnn.toNat + (s.readV 0).toNat ≤ 0xFFE → (nnn.toNat + (s.readV 0).toNat) % 2 = 1 →
        step t = .next { t with status := .fault .fetchMisaligned t.pc none })

/-! ### Skips (41_skip.md) -/

/-- SE Vx, nn and SNE Vx, nn (R61, R62): pc rises by 4 when V[x] = nn (for SNE: when it is not), and by 2
otherwise; nothing else changes, so exactly one of the two skips. A skip at 0xFFE writes 0x1002, and the
next fetch faults (D4). -/
def Obligations.SkipOnImmediate : Prop :=
  ∀ (x : Reg) (nn : Byte) (s : State),
    decode ((0x3#4 ++ regBits x : Byte) ++ nn : Word) = .ok (.seImm x nn) ∧
    decode ((0x4#4 ++ regBits x : Byte) ++ nn : Word) = .ok (.sneImm x nn) ∧
    ∃ t u, exec (.seImm x nn) s = .next t ∧ exec (.sneImm x nn) s = .next u ∧
      s.KeepsBut [] t ∧ s.KeepsBut [] u ∧
      (s.readV x = nn → t.pc = s.pc + 4#16 ∧ u.pc = s.pc + 2#16) ∧
      (s.readV x ≠ nn → t.pc = s.pc + 2#16 ∧ u.pc = s.pc + 4#16) ∧
      (s.status = .run → s.pc = 0xFFE#16 →
        step t = .next { t with status := .fault .fetchOutOfRange t.pc none } ∧
        step u = .next { u with status := .fault .fetchOutOfRange u.pc none })

/-- SE Vx, Vy and SNE Vx, Vy (R63, R64): pc rises by 4 when V[x] = V[y] (for SNE: when it is not), and by 2
otherwise; nothing else changes. Only n4 = 0 selects them; another trailing nibble is rejected (the
spec's own choice, D8). -/
def Obligations.SkipOnRegisters : Prop :=
  ∀ (x y : Reg) (s : State),
    decode ((0x5#4 ++ regBits x : Byte) ++ (regBits y ++ 0x0#4 : Byte) : Word) = .ok (.seReg x y) ∧
    decode ((0x9#4 ++ regBits x : Byte) ++ (regBits y ++ 0x0#4 : Byte) : Word) = .ok (.sneReg x y) ∧
    (∀ n : BitVec 4, n ≠ 0x0#4 →
      (∃ e, decode ((0x5#4 ++ regBits x : Byte) ++ (regBits y ++ n : Byte) : Word) = .error e) ∧
      (∃ e, decode ((0x9#4 ++ regBits x : Byte) ++ (regBits y ++ n : Byte) : Word) = .error e)) ∧
    ∃ t u, exec (.seReg x y) s = .next t ∧ exec (.sneReg x y) s = .next u ∧
      s.KeepsBut [] t ∧ s.KeepsBut [] u ∧
      (s.readV x = s.readV y → t.pc = s.pc + 4#16 ∧ u.pc = s.pc + 2#16) ∧
      (s.readV x ≠ s.readV y → t.pc = s.pc + 2#16 ∧ u.pc = s.pc + 4#16)

/-! ### Register-immediate operations (42_register_immediate.md) -/

/-- LD Vx, nn (R66): V[x] becomes nn, for every x and nn, pc rises by 2, and nothing else changes. -/
def Obligations.LdImmSetsRegister : Prop :=
  ∀ (x : Reg) (nn : Byte) (s : State),
    decode ((0x6#4 ++ regBits x : Byte) ++ nn : Word) = .ok (.ldImm x nn) ∧
    ∃ t, exec (.ldImm x nn) s = .next t ∧ t.readV x = nn ∧ t.pc = s.pc + 2#16 ∧ s.KeepsBut [x] t

/-- ADD Vx, nn (R67): V[x] becomes the sum modulo 256 and pc rises by 2; VF is not written unless x = 15,
where it is the sum; nothing else changes, and no overflow is an error. -/
def Obligations.AddImmWrapsWithoutFlag : Prop :=
  ∀ (x : Reg) (nn : Byte) (s : State),
    decode ((0x7#4 ++ regBits x : Byte) ++ nn : Word) = .ok (.addImm x nn) ∧
    ∃ t, exec (.addImm x nn) s = .next t ∧ (t.readV x).toNat = ((s.readV x).toNat + nn.toNat) % 256 ∧
      t.pc = s.pc + 2#16 ∧ s.KeepsBut [x] t

/-- RND Vx, nn (R69, D12): V[x] is the step's draw AND nn, for whatever the draw is: `Config.randomByte`
is a free value indexed by the model's own counter (log 1), and this holds for every value of both. -/
def Obligations.RndMasksTheDraw : Prop :=
  ∀ (x : Reg) (nn : Byte) (s : State),
    decode ((0xC#4 ++ regBits x : Byte) ++ nn : Word) = .ok (.rnd x nn) ∧
    ∃ t, exec (.rnd x nn) s = .next t ∧ t.readV x = Config.randomByte s.draws &&& nn ∧
      t.readV x &&& ~~~nn = 0x00#8 ∧ (nn = 0x00#8 → t.readV x = 0x00#8) ∧
      t.draws = s.draws + 1 ∧ t.pc = s.pc + 2#16 ∧ s.KeepsBut [x] t

/-! ### Register-register operations (43_alu.md) -/

/-- LD Vx, Vy (R70): V[x] becomes V[y], pc rises by 2, and nothing else changes; with x = 15 it writes VF. -/
def Obligations.LdRegCopies : Prop :=
  ∀ (x y : Reg) (s : State),
    decode ((0x8#4 ++ regBits x : Byte) ++ (regBits y ++ 0x0#4 : Byte) : Word) = .ok (.ldReg x y) ∧
    ∃ t, exec (.ldReg x y) s = .next t ∧ t.readV x = s.readV y ∧ t.pc = s.pc + 2#16 ∧ s.KeepsBut [x] t

/-- OR, AND and XOR Vx, Vy (R71, R72, R73), bit by bit; VF is not written unless x = 15. -/
def Obligations.LogicWritesNoFlag : Prop :=
  ∀ (x y : Reg) (s : State),
    decode ((0x8#4 ++ regBits x : Byte) ++ (regBits y ++ 0x1#4 : Byte) : Word) = .ok (.orReg x y) ∧
    decode ((0x8#4 ++ regBits x : Byte) ++ (regBits y ++ 0x2#4 : Byte) : Word) = .ok (.andReg x y) ∧
    decode ((0x8#4 ++ regBits x : Byte) ++ (regBits y ++ 0x3#4 : Byte) : Word) = .ok (.xorReg x y) ∧
    ∃ t u w, exec (.orReg x y) s = .next t ∧ exec (.andReg x y) s = .next u ∧
      exec (.xorReg x y) s = .next w ∧
      (∀ k (_ : k < 8), (t.readV x)[k] = ((s.readV x)[k] || (s.readV y)[k]) ∧
        (u.readV x)[k] = ((s.readV x)[k] && (s.readV y)[k]) ∧
        (w.readV x)[k] = ((s.readV x)[k] ^^ (s.readV y)[k])) ∧
      t.pc = s.pc + 2#16 ∧ u.pc = s.pc + 2#16 ∧ w.pc = s.pc + 2#16 ∧
      s.KeepsBut [x] t ∧ s.KeepsBut [x] u ∧ s.KeepsBut [x] w

/-- ADD Vx, Vy (R74): the sum modulo 256, VF the carry, both from the values before the instruction. With
x = 15 the flag is what VF holds (the order of the two writes is the spec's own choice, D7). -/
def Obligations.AddRegSetsCarry : Prop :=
  ∀ (x y : Reg) (s : State),
    decode ((0x8#4 ++ regBits x : Byte) ++ (regBits y ++ 0x4#4 : Byte) : Word) = .ok (.addReg x y) ∧
    ∃ t, exec (.addReg x y) s = .next t ∧
      (x ≠ 15 → (t.readV x).toNat = ((s.readV x).toNat + (s.readV y).toNat) % 256) ∧
      t.readV 15 = (if (s.readV x).toNat + (s.readV y).toNat > 255 then 0x01#8 else 0x00#8) ∧
      t.pc = s.pc + 2#16 ∧ s.KeepsBut [x, 15] t

/-- SUB Vx, Vy (R75): V[x] - V[y] modulo 256, VF = NOT borrow; with x = 15 the flag stays (D7). -/
def Obligations.SubRegSetsNotBorrow : Prop :=
  ∀ (x y : Reg) (s : State),
    decode ((0x8#4 ++ regBits x : Byte) ++ (regBits y ++ 0x5#4 : Byte) : Word) = .ok (.subReg x y) ∧
    ∃ t, exec (.subReg x y) s = .next t ∧
      (x ≠ 15 → ((t.readV x).toNat : Int) = (((s.readV x).toNat : Int) - (s.readV y).toNat) % 256) ∧
      t.readV 15 = (if (s.readV x).toNat ≥ (s.readV y).toNat then 0x01#8 else 0x00#8) ∧
      t.pc = s.pc + 2#16 ∧ s.KeepsBut [x, 15] t

/-- SHR Vx, Vy (R76): V[x] is halved, VF = its old bit 0, V[y] plays no part; with x = 15 the flag stays
(D7). -/
def Obligations.ShrShiftsVx : Prop :=
  ∀ (x y : Reg) (s : State),
    decode ((0x8#4 ++ regBits x : Byte) ++ (regBits y ++ 0x6#4 : Byte) : Word) = .ok (.shrReg x y) ∧
    ∃ t, exec (.shrReg x y) s = .next t ∧
      (x ≠ 15 → (t.readV x).toNat = (s.readV x).toNat / 2) ∧
      (t.readV 15).toNat = (s.readV x).toNat % 2 ∧ t.pc = s.pc + 2#16 ∧ s.KeepsBut [x, 15] t

/-- SUBN Vx, Vy (R77): V[y] - V[x] modulo 256, VF = NOT borrow; with x = 15 the flag stays (D7). -/
def Obligations.SubnRegSetsNotBorrow : Prop :=
  ∀ (x y : Reg) (s : State),
    decode ((0x8#4 ++ regBits x : Byte) ++ (regBits y ++ 0x7#4 : Byte) : Word) = .ok (.subnReg x y) ∧
    ∃ t, exec (.subnReg x y) s = .next t ∧
      (x ≠ 15 → ((t.readV x).toNat : Int) = (((s.readV y).toNat : Int) - (s.readV x).toNat) % 256) ∧
      t.readV 15 = (if (s.readV y).toNat ≥ (s.readV x).toNat then 0x01#8 else 0x00#8) ∧
      t.pc = s.pc + 2#16 ∧ s.KeepsBut [x, 15] t

/-- SHL Vx, Vy (R78): V[x] is doubled modulo 256, VF = its old bit 7, V[y] plays no part; with x = 15 the
flag stays (D7). -/
def Obligations.ShlShiftsVx : Prop :=
  ∀ (x y : Reg) (s : State),
    decode ((0x8#4 ++ regBits x : Byte) ++ (regBits y ++ 0xE#4 : Byte) : Word) = .ok (.shlReg x y) ∧
    ∃ t, exec (.shlReg x y) s = .next t ∧
      (x ≠ 15 → (t.readV x).toNat = (s.readV x).toNat * 2 % 256) ∧
      (t.readV 15).toNat = (s.readV x).toNat / 128 ∧ t.pc = s.pc + 2#16 ∧ s.KeepsBut [x, 15] t

/-! ### Memory and the call stack (20_memory.md) -/

/-- R31: a read of one byte, and of two, high byte first, inside memory; a read has no side effect, since
it answers a value alone. -/
def Obligations.MemReadIsBigEndian : Prop :=
  ∀ (s : State) (addr : Word),
    (addr.toNat ≤ 0xFFF → s.memRead8 addr = .ok (s.readByte addr.toNat)) ∧
    (addr.toNat + 1 ≤ 0xFFF → ∃ w, s.memRead16 addr = .ok w ∧
      w = s.readByte addr.toNat ++ s.readByte (addr.toNat + 1) ∧
      w.toNat = (s.readByte addr.toNat).toNat * 256 + (s.readByte (addr.toNat + 1)).toNat)

/-- R32: a two-byte write sets bits [15:8] at the address and bits [7:0] at the next, and nothing else. -/
def Obligations.MemWriteIsBigEndian : Prop :=
  ∀ (s : State) (addr v : Word), s.mem.wf = true → addr.toNat + 1 ≤ 0xFFF →
    ∃ t, s.memWrite16 addr v = .ok t ∧ t.readByte addr.toNat = v.extractLsb' 8 8 ∧
      t.readByte (addr.toNat + 1) = v.extractLsb' 0 8 ∧
      (∀ a, a ≠ addr.toNat → a ≠ addr.toNat + 1 → t.readByte a = s.readByte a) ∧
      t.V = s.V ∧ t.I = s.I ∧ t.pc = s.pc ∧ t.sp = s.sp ∧ t.status = s.status

/-- R33 (D17, the spec's own choice): an access whose bytes are not all inside memory raises
MEM_OUT_OF_RANGE. -/
def Obligations.AccessOutsideMemoryFaults : Prop :=
  ∀ (s : State) (addr v : Word),
    (0xFFF < addr.toNat → s.memRead8 addr = .error .memOutOfRange) ∧
    (0xFFF < addr.toNat + 1 →
      s.memRead16 addr = .error .memOutOfRange ∧ s.memWrite16 addr v = .error .memOutOfRange)

/-- R35: push16 advances `sp` by 2, then stores high byte first at the new `sp`; from empty it fills slot
0 at 0xEA0..0xEA1. -/
def Obligations.PushAdvancesThenStores : Prop :=
  ∀ (s : State) (v : Word), s.mem.wf = true → s.sp.toNat + 3 ≤ 0xFFF →
    ∃ t, s.push16 v = .ok t ∧ t.sp.toNat = s.sp.toNat + 2 ∧
      t.readByte t.sp.toNat = v.extractLsb' 8 8 ∧ t.readByte (t.sp.toNat + 1) = v.extractLsb' 0 8 ∧
      (∀ a, a ≠ t.sp.toNat → a ≠ t.sp.toNat + 1 → t.readByte a = s.readByte a) ∧
      t.V = s.V ∧ t.I = s.I ∧ t.pc = s.pc ∧ t.status = s.status ∧
      (s.sp = 0xE9E#16 →
        t.readByte 0xEA0 = v.extractLsb' 8 8 ∧ t.readByte 0xEA1 = v.extractLsb' 0 8)

/-- R36: pop16 reads two bytes, high first, at `sp`, then retreats `sp` by 2; memory keeps the slot. -/
def Obligations.PopReadsThenRetreats : Prop :=
  ∀ s : State, s.sp.toNat + 1 ≤ 0xFFF →
    ∃ t, s.pop16 = .ok (s.readByte s.sp.toNat ++ s.readByte (s.sp.toNat + 1), t) ∧
      t.sp = s.sp - 2#16 ∧ t.mem = s.mem ∧ t.V = s.V ∧ t.I = s.I ∧ t.pc = s.pc ∧
      t.status = s.status

/-- The round trip of 95_test_vectors.md W9, for every legal stack that is not full and every target: a
CALL, then a RET at its target, restores pc to the address after the CALL and `sp` to its value before,
and leaves every register and every byte outside the slot as they were. -/
def Obligations.CallThenRetReturns : Prop :=
  ∀ (s : State) (nnn : Addr12), s.mem.wf = true → legalSp s.sp → s.sp ≠ 0xEFE#16 →
    ∃ t u, exec (.call nnn) s = .next t ∧ t.pc.toNat = nnn.toNat ∧ exec .ret t = .next u ∧
      u.pc = s.pc + 2#16 ∧ u.sp = s.sp ∧ u.V = s.V ∧ u.I = s.I ∧ u.status = s.status ∧
      ∀ a, a ≠ s.sp.toNat + 2 → a ≠ s.sp.toNat + 3 → u.readByte a = s.readByte a

/-- R42: a CALL to the slot it pushes into: the next fetch reads the bytes just pushed. -/
def Obligations.FetchSeesThePush : Prop :=
  ∀ (s : State) (nnn : Addr12), s.mem.wf = true → legalSp s.sp → s.sp ≠ 0xEFE#16 →
    nnn.toNat = s.sp.toNat + 2 →
    ∃ t, exec (.call nnn) s = .next t ∧ t.fetch = .ok (s.pc + 2#16)

/-- Two canonical memories that read alike at every address of 0x000..0xFFF are the same list, so equal
memories are equal data (the model's own representation, log 5). -/
def Obligations.CanonicalMemoryIsUnique : Prop :=
  ∀ m m' : Memory, m.wf = true → m'.wf = true →
    (∀ a, a < 4096 → m.readByte a = m'.readByte a) → m = m'

/-! ### Frames and whole-machine rules -/

/-- R29: every instruction but 2nnn stores nothing: every byte of memory reads as before. -/
def Obligations.OnlyCallStores : Prop :=
  ∀ (i : Instr) (s t : State), (∀ nnn, i ≠ .call nnn) → exec i s = .next t →
    ∀ a, t.readByte a = s.readByte a

/-- R29, R58: 2nnn stores only the two bytes at the address a push stores to, `State.pushAddr`, and
nothing on a full stack; every register, `I` and the draws are unchanged (its `sp` and pc, and the
status, may change). -/
def Obligations.CallStoresOnlyItsSlot : Prop :=
  ∀ (nnn : Addr12) (s t : State), exec (.call nnn) s = .next t →
    (∀ a : Word, s.pushAddr = a → ∀ k, k ≠ a.toNat → k ≠ a.toNat + 1 → t.readByte k = s.readByte k) ∧
    (0xEFE#16 ≤ s.sp → ∀ k, t.readByte k = s.readByte k) ∧
    (∀ r, t.readV r = s.readV r) ∧ t.I = s.I ∧ t.draws = s.draws

/-- 10_state.md R16, the writes column: no instruction changes a general register that is not one of its
destinations: V[x] for 6xnn, 7xnn, Cxnn and 8xy0 to 8xy3, V[x] and V[15] for 8xy4 to 8xy7 and 8xyE, and
none for 1nnn, 2nnn, 00EE, Annn, Bnnn and the skips (`writesV`). -/
def Obligations.OnlyDestinationsChange : Prop :=
  ∀ (i : Instr) (s t : State), exec i s = .next t → ∀ r, r ∉ writesV i → t.readV r = s.readV r

/-- R17, R21, R23, R69: only Annn changes `I`, only 2nnn and 00EE change `sp`, only a fault of theirs
changes the status, and only Cxnn reads a draw (the counter of draws is the model's own, log 1). -/
def Obligations.SpecialStateFrame : Prop :=
  ∀ (i : Instr) (s t : State), exec i s = .next t →
    ((∀ nnn, i ≠ .ldI nnn) → t.I = s.I) ∧
    ((∀ nnn, i ≠ .call nnn) → i ≠ .ret → t.sp = s.sp ∧ t.status = s.status) ∧
    (t.status = s.status ∨ ∃ c op, t.status = .fault c s.pc op) ∧
    ((∀ x nn, i ≠ .rnd x nn) → t.draws = s.draws)

/-- R15: VF after 8xy4 to 8xy7 and 8xyE is 0 or 1, at x = 15 by D7, the spec's own choice that the flag
is written last (log 9); no other handler writes it unless it is the destination x (`writesV`); and no
handler reads it unless x or y names it: two runs that differ in VF alone, with the same draw (R6), agree
on everything else. -/
def Obligations.FlagRegisterRule : Prop :=
  (∀ (x y : Reg) (s t : State), exec (.addReg x y) s = .next t ∨ exec (.subReg x y) s = .next t ∨
      exec (.shrReg x y) s = .next t ∨ exec (.subnReg x y) s = .next t ∨ exec (.shlReg x y) s = .next t →
    t.readV 15 = 0x00#8 ∨ t.readV 15 = 0x01#8) ∧
  (∀ (i : Instr) (s t : State), 15 ∉ writesV i → exec i s = .next t → t.readV 15 = s.readV 15) ∧
  (∀ (i : Instr) (s t : State) (b : Byte),
    (∀ n, Operand.reg n ∈ i.operands → n ≠ 15) → exec i s = .next t →
    ∃ t', exec i (s.writeV 15 b) = .next t' ∧ (∀ r, r ≠ 15 → t'.readV r = t.readV r) ∧ t'.I = t.I ∧
      t'.pc = t.pc ∧ t'.sp = t.sp ∧ t'.mem = t.mem ∧ t'.status = t.status)

/-- R16, the reads column: what an instruction does depends on no general register but those it reads
(`readsV`): with other values elsewhere, and the same draw (R6), it has the same effect and leaves
those values as they are. -/
def Obligations.OnlySourcesMatter : Prop :=
  ∀ (i : Instr) (s t : State) (V' : Vector Byte 16),
    (∀ r ∈ readsV i, ({ s with V := V' } : State).readV r = s.readV r) → exec i s = .next t →
    ∃ t', exec i { s with V := V' } = .next t' ∧
      (∀ r ∈ writesV i, t'.readV r = t.readV r) ∧
      (∀ r, r ∉ writesV i → t'.readV r = ({ s with V := V' } : State).readV r) ∧
      t'.I = t.I ∧ t'.pc = t.pc ∧ t'.sp = t.sp ∧ t'.mem = t.mem ∧ t'.status = t.status ∧
      t'.draws = t.draws

/-- R17 and LD I, nnn (R68): Annn writes `I` with the zero-extended nnn, adds 2 to pc and changes nothing
else; no other instruction writes `I`, so it stays inside 0..0xFFF; and no instruction reads it: two runs
that differ in `I` alone, with the same draw (R6), agree on everything else, so the write is visible
only as state. -/
def Obligations.AddressRegisterRule : Prop :=
  (∀ (nnn : Addr12) (s : State),
    decode (0xA#4 ++ nnn : Word) = .ok (.ldI nnn) ∧
    ∃ t, exec (.ldI nnn) s = .next t ∧ t.I.toNat = nnn.toNat ∧ t.I.toNat ≤ 4095 ∧ t.pc = s.pc + 2#16 ∧
      (∀ r, t.readV r = s.readV r) ∧ t.sp = s.sp ∧ (∀ a, t.readByte a = s.readByte a) ∧
      t.status = s.status) ∧
  (∀ (i : Instr) (s t : State), (∀ nnn, i ≠ .ldI nnn) → exec i s = .next t → t.I = s.I) ∧
  (∀ s t : State, s.I.toNat ≤ 0xFFF → step s = .next t → t.I.toNat ≤ 0xFFF) ∧
  (∀ (i : Instr) (s t : State) (w : Word), exec i s = .next t →
    ∃ t', exec i { s with I := w } = .next t' ∧ t'.V = t.V ∧ t'.pc = t.pc ∧ t'.sp = t.sp ∧
      t'.mem = t.mem ∧ t'.status = t.status)

/-- R20: no step but that of 00EE writes a pc above 0x10FE, so no pc addition wraps. -/
def Obligations.PcNeverWraps : Prop :=
  ∀ s t : State, s.fetchInstr ≠ .ok .ret → step s = .next t → t.status = .run →
    t.pc.toNat ≤ 0x10FE ∧ (t.pc.toNat = s.pc.toNat + 2 ∨ t.pc.toNat = s.pc.toNat + 4 ∨
      ∃ i, s.fetchInstr = .ok i ∧ ∃ nnn, i = .jp nnn ∨ i = .call nnn ∨ i = .jpV0 nnn)

/-- R29 and 41_skip.md R65: memory reaches a step only through its fetch, and through the pop of 00EE. With
any other memory that holds the same word at pc, and the same draw (R6), a step of another instruction
has the same effect on every register, on pc, `sp` and the status; so a skipped word is never looked at. -/
def Obligations.MemoryMattersOnlyToFetchAndRet : Prop :=
  ∀ (s t : State) (m : Memory), s.fetchInstr ≠ .ok .ret →
    ({ s with mem := m } : State).fetch = s.fetch → step s = .next t →
    ∃ t', step { s with mem := m } = .next t' ∧ t'.V = t.V ∧ t'.I = t.I ∧ t'.pc = t.pc ∧ t'.sp = t.sp ∧
      t'.status = t.status ∧ t'.draws = t.draws

/-- 70_reset_and_hazards.md R105.1 (the definition of a normal end is the spec's own choice, D18): from an
idle end every later step leaves the state unchanged. -/
def Obligations.IdleEndIsFixed : Prop :=
  ∀ s : State, s.IdleEnd → ∀ n : Nat, runSteps n s = .next s
end

