-- ==== Sys2Proof/Laws/Decode.lean ====
section
/-! SUPPORT. The fields of a packed opcode (30_encoding.md R44, R45), and that an instruction's own
types keep it well formed. -/

namespace Sys2Proof

/-- A register number through its four bits. -/
theorem toFin_regBits (r : Reg) : (regBits r).toFin = r := rfl

/-! ### op16/nnn -/

theorem leadOf_packNnn (l : BitVec 4) (n : Addr12) : leadOf (packNnn l n) = l := by
  apply BitVec.eq_of_getLsbD_eq
  intro i h
  simp only [leadOf, packNnn, BitVec.getLsbD_extractLsb', BitVec.getLsbD_append]
  simp [h]

theorem nnnOf_packNnn (l : BitVec 4) (n : Addr12) : nnnOf (packNnn l n) = n := by
  apply BitVec.eq_of_getLsbD_eq
  intro i h
  simp only [nnnOf, packNnn, BitVec.getLsbD_extractLsb', BitVec.getLsbD_append]
  simp [h]

/-! ### op16/x,nn -/

theorem leadOf_packXnn (l : BitVec 4) (x : Reg) (nn : Byte) : leadOf (packXnn l x nn) = l := by
  apply BitVec.eq_of_getLsbD_eq
  intro i h
  simp only [leadOf, packXnn, BitVec.getLsbD_extractLsb', BitVec.getLsbD_append]
  simp [h, show ¬ 12 + i < 8 by omega, show ¬ 12 + i - 8 < 4 by omega,
    show 12 + i - 8 - 4 = i by omega]

theorem xOf_packXnn (l : BitVec 4) (x : Reg) (nn : Byte) : xOf (packXnn l x nn) = x := by
  have : (packXnn l x nn).extractLsb' 8 4 = regBits x := by
    apply BitVec.eq_of_getLsbD_eq
    intro i h
    simp only [packXnn, BitVec.getLsbD_extractLsb', BitVec.getLsbD_append]
    simp [h]
  simp only [xOf, this, toFin_regBits]

theorem nnOf_packXnn (l : BitVec 4) (x : Reg) (nn : Byte) : nnOf (packXnn l x nn) = nn := by
  apply BitVec.eq_of_getLsbD_eq
  intro i h
  simp only [nnOf, packXnn, BitVec.getLsbD_extractLsb', BitVec.getLsbD_append]
  simp [h]

/-! ### op16/x,y -/

theorem leadOf_packXy (l : BitVec 4) (x y : Reg) (n : BitVec 4) : leadOf (packXy l x y n) = l := by
  apply BitVec.eq_of_getLsbD_eq
  intro i h
  simp only [leadOf, packXy, BitVec.getLsbD_extractLsb', BitVec.getLsbD_append]
  simp [h, show ¬ 12 + i < 8 by omega, show ¬ 12 + i - 8 < 4 by omega,
    show 12 + i - 8 - 4 = i by omega]

theorem xOf_packXy (l : BitVec 4) (x y : Reg) (n : BitVec 4) : xOf (packXy l x y n) = x := by
  have : (packXy l x y n).extractLsb' 8 4 = regBits x := by
    apply BitVec.eq_of_getLsbD_eq
    intro i h
    simp only [packXy, BitVec.getLsbD_extractLsb', BitVec.getLsbD_append]
    simp [h]
  simp only [xOf, this, toFin_regBits]

theorem yOf_packXy (l : BitVec 4) (x y : Reg) (n : BitVec 4) : yOf (packXy l x y n) = y := by
  have : (packXy l x y n).extractLsb' 4 4 = regBits y := by
    apply BitVec.eq_of_getLsbD_eq
    intro i h
    simp only [packXy, BitVec.getLsbD_extractLsb', BitVec.getLsbD_append]
    simp [h, show 4 + i < 8 by omega]
  simp only [yOf, this, toFin_regBits]

theorem n4Of_packXy (l : BitVec 4) (x y : Reg) (n : BitVec 4) : n4Of (packXy l x y n) = n := by
  apply BitVec.eq_of_getLsbD_eq
  intro i h
  simp only [n4Of, packXy, BitVec.getLsbD_extractLsb', BitVec.getLsbD_append]
  simp [h, show i < 8 by omega]

/-- 00EE has leading nibble 0, so a word with another leading nibble is not it (R47). -/
theorem ne_ret_of_leadOf {op : Word} (h : leadOf op ≠ 0#4) : op ≠ 0x00EE#16 := by
  rintro rfl
  exact h (by decide)

/-- Each register number passes the check of R46 by its type. -/
@[simp] theorem Operand.wellFormed_reg (r : Reg) : (Operand.reg r.val).wellFormed = true := by
  simp [Operand.wellFormed, r.isLt]

/-- Each 8-bit immediate passes the check of R46 by its type. -/
@[simp] theorem Operand.wellFormed_imm (nn : Byte) : (Operand.imm nn.toNat).wellFormed = true := by
  simp [Operand.wellFormed]; exact nn.isLt

/-- Each 12-bit address passes the check of R46 by its type. -/
@[simp] theorem Operand.wellFormed_addr (nnn : Addr12) : (Operand.addr nnn.toNat).wellFormed = true := by
  simp [Operand.wellFormed]; exact nnn.isLt

/-- Every instruction is well formed: its types keep its operands in range (R46). -/
theorem Instr.wellFormed_all (i : Instr) : i.wellFormed = true := by
  cases i <;> simp [Instr.wellFormed, Instr.operands]

end Sys2Proof
end

