-- ==== Sys2Proof/Laws/State.lean ====
section
/-! SUPPORT. One lemma per field per named update of State, true by rfl, and what a register read gives
after each update, so that no later proof unfolds a record update. -/

namespace Sys2Proof.Machine

open Sys2Proof

variable (s : State)

/-! ### writeV -/

@[simp] theorem State.writeV_v (r : Reg) (b : Byte) : (s.writeV r b).V = s.V.set r.val b := rfl
@[simp] theorem State.writeV_i (r : Reg) (b : Byte) : (s.writeV r b).I = s.I := rfl
@[simp] theorem State.writeV_pc (r : Reg) (b : Byte) : (s.writeV r b).pc = s.pc := rfl
@[simp] theorem State.writeV_sp (r : Reg) (b : Byte) : (s.writeV r b).sp = s.sp := rfl
@[simp] theorem State.writeV_mem (r : Reg) (b : Byte) : (s.writeV r b).mem = s.mem := rfl
@[simp] theorem State.writeV_status (r : Reg) (b : Byte) : (s.writeV r b).status = s.status := rfl
@[simp] theorem State.writeV_draws (r : Reg) (b : Byte) : (s.writeV r b).draws = s.draws := rfl

/-! ### setI -/

@[simp] theorem State.setI_v (w : Word) : (s.setI w).V = s.V := rfl
@[simp] theorem State.setI_i (w : Word) : (s.setI w).I = w := rfl
@[simp] theorem State.setI_pc (w : Word) : (s.setI w).pc = s.pc := rfl
@[simp] theorem State.setI_sp (w : Word) : (s.setI w).sp = s.sp := rfl
@[simp] theorem State.setI_mem (w : Word) : (s.setI w).mem = s.mem := rfl
@[simp] theorem State.setI_status (w : Word) : (s.setI w).status = s.status := rfl
@[simp] theorem State.setI_draws (w : Word) : (s.setI w).draws = s.draws := rfl

/-! ### setPc -/

@[simp] theorem State.setPc_v (w : Word) : (s.setPc w).V = s.V := rfl
@[simp] theorem State.setPc_i (w : Word) : (s.setPc w).I = s.I := rfl
@[simp] theorem State.setPc_pc (w : Word) : (s.setPc w).pc = w := rfl
@[simp] theorem State.setPc_sp (w : Word) : (s.setPc w).sp = s.sp := rfl
@[simp] theorem State.setPc_mem (w : Word) : (s.setPc w).mem = s.mem := rfl
@[simp] theorem State.setPc_status (w : Word) : (s.setPc w).status = s.status := rfl
@[simp] theorem State.setPc_draws (w : Word) : (s.setPc w).draws = s.draws := rfl

/-! ### advance -/

@[simp] theorem State.advance_v : (s.advance).V = s.V := rfl
@[simp] theorem State.advance_i : (s.advance).I = s.I := rfl
@[simp] theorem State.advance_pc : (s.advance).pc = s.pc + 2#16 := rfl
@[simp] theorem State.advance_sp : (s.advance).sp = s.sp := rfl
@[simp] theorem State.advance_mem : (s.advance).mem = s.mem := rfl
@[simp] theorem State.advance_status : (s.advance).status = s.status := rfl
@[simp] theorem State.advance_draws : (s.advance).draws = s.draws := rfl

/-! ### setSp -/

@[simp] theorem State.setSp_v (w : Word) : (s.setSp w).V = s.V := rfl
@[simp] theorem State.setSp_i (w : Word) : (s.setSp w).I = s.I := rfl
@[simp] theorem State.setSp_pc (w : Word) : (s.setSp w).pc = s.pc := rfl
@[simp] theorem State.setSp_sp (w : Word) : (s.setSp w).sp = w := rfl
@[simp] theorem State.setSp_mem (w : Word) : (s.setSp w).mem = s.mem := rfl
@[simp] theorem State.setSp_status (w : Word) : (s.setSp w).status = s.status := rfl
@[simp] theorem State.setSp_draws (w : Word) : (s.setSp w).draws = s.draws := rfl

/-! ### skipIf -/

@[simp] theorem State.skipIf_v (c : Bool) : (s.skipIf c).V = s.V := rfl
@[simp] theorem State.skipIf_i (c : Bool) : (s.skipIf c).I = s.I := rfl
@[simp] theorem State.skipIf_pc (c : Bool) : (s.skipIf c).pc = (if c then s.pc + 4#16 else s.pc + 2#16) := rfl
@[simp] theorem State.skipIf_sp (c : Bool) : (s.skipIf c).sp = s.sp := rfl
@[simp] theorem State.skipIf_mem (c : Bool) : (s.skipIf c).mem = s.mem := rfl
@[simp] theorem State.skipIf_status (c : Bool) : (s.skipIf c).status = s.status := rfl
@[simp] theorem State.skipIf_draws (c : Bool) : (s.skipIf c).draws = s.draws := rfl

/-! ### drawTaken -/

@[simp] theorem State.drawTaken_v : (s.drawTaken).V = s.V := rfl
@[simp] theorem State.drawTaken_i : (s.drawTaken).I = s.I := rfl
@[simp] theorem State.drawTaken_pc : (s.drawTaken).pc = s.pc := rfl
@[simp] theorem State.drawTaken_sp : (s.drawTaken).sp = s.sp := rfl
@[simp] theorem State.drawTaken_mem : (s.drawTaken).mem = s.mem := rfl
@[simp] theorem State.drawTaken_status : (s.drawTaken).status = s.status := rfl
@[simp] theorem State.drawTaken_draws : (s.drawTaken).draws = s.draws + 1 := rfl

/-! ### storeWord -/

@[simp] theorem State.storeWord_v (a : Nat) (v : Word) : (s.storeWord a v).V = s.V := rfl
@[simp] theorem State.storeWord_i (a : Nat) (v : Word) : (s.storeWord a v).I = s.I := rfl
@[simp] theorem State.storeWord_pc (a : Nat) (v : Word) : (s.storeWord a v).pc = s.pc := rfl
@[simp] theorem State.storeWord_sp (a : Nat) (v : Word) : (s.storeWord a v).sp = s.sp := rfl
@[simp] theorem State.storeWord_mem (a : Nat) (v : Word) : (s.storeWord a v).mem = (s.mem.writeByte a (highByte v)).writeByte (a + 1) (lowByte v) := rfl
@[simp] theorem State.storeWord_status (a : Nat) (v : Word) : (s.storeWord a v).status = s.status := rfl
@[simp] theorem State.storeWord_draws (a : Nat) (v : Word) : (s.storeWord a v).draws = s.draws := rfl

/-! ### takeFault -/

@[simp] theorem State.takeFault_v (c : Cause) (op : Option Word) : (s.takeFault c op).V = s.V := rfl
@[simp] theorem State.takeFault_i (c : Cause) (op : Option Word) : (s.takeFault c op).I = s.I := rfl
@[simp] theorem State.takeFault_pc (c : Cause) (op : Option Word) : (s.takeFault c op).pc = s.pc := rfl
@[simp] theorem State.takeFault_sp (c : Cause) (op : Option Word) : (s.takeFault c op).sp = s.sp := rfl
@[simp] theorem State.takeFault_mem (c : Cause) (op : Option Word) : (s.takeFault c op).mem = s.mem := rfl
@[simp] theorem State.takeFault_status (c : Cause) (op : Option Word) : (s.takeFault c op).status = .fault c s.pc op := rfl
@[simp] theorem State.takeFault_draws (c : Cause) (op : Option Word) : (s.takeFault c op).draws = s.draws := rfl

/-! ### writeResultFlag -/

@[simp] theorem State.writeResultFlag_v (x : Reg) (b : Byte) (f : Bool) : (s.writeResultFlag x b f).V = (s.V.set x.val b).set Reg.vf.val (flagByte f) := rfl
@[simp] theorem State.writeResultFlag_i (x : Reg) (b : Byte) (f : Bool) : (s.writeResultFlag x b f).I = s.I := rfl
@[simp] theorem State.writeResultFlag_pc (x : Reg) (b : Byte) (f : Bool) : (s.writeResultFlag x b f).pc = s.pc := rfl
@[simp] theorem State.writeResultFlag_sp (x : Reg) (b : Byte) (f : Bool) : (s.writeResultFlag x b f).sp = s.sp := rfl
@[simp] theorem State.writeResultFlag_mem (x : Reg) (b : Byte) (f : Bool) : (s.writeResultFlag x b f).mem = s.mem := rfl
@[simp] theorem State.writeResultFlag_status (x : Reg) (b : Byte) (f : Bool) : (s.writeResultFlag x b f).status = s.status := rfl
@[simp] theorem State.writeResultFlag_draws (x : Reg) (b : Byte) (f : Bool) : (s.writeResultFlag x b f).draws = s.draws := rfl

/-! ### Register and byte reads after an update -/

/-- Reading a register after writing one (R9, R14). -/
@[simp] theorem State.readV_writeV (x r : Reg) (b : Byte) :
    (s.writeV x b).readV r = if r = x then b else s.readV r := by
  unfold State.readV State.writeV
  by_cases h : r = x
  · subst h; simp
  · have : x.val ≠ r.val := fun e => h (Fin.ext e.symm)
    simp [h, Vector.getElem_set_ne, this]

/-- After a flag-writing handler VF holds the flag whatever x is, and V[x] the result when x is not 15
(R11, D7). -/
@[simp] theorem State.readV_writeResultFlag (x r : Reg) (b : Byte) (f : Bool) :
    (s.writeResultFlag x b f).readV r =
      if r = Reg.vf then flagByte f else if r = x then b else s.readV r := by
  simp [State.writeResultFlag]

@[simp] theorem State.readByte_writeV (r : Reg) (b : Byte) (k : Nat) : (s.writeV r b).readByte k = s.readByte k := rfl
@[simp] theorem State.readV_setI (w : Word) (r : Reg) : (s.setI w).readV r = s.readV r := rfl
@[simp] theorem State.readByte_setI (w : Word) (k : Nat) : (s.setI w).readByte k = s.readByte k := rfl
@[simp] theorem State.readV_setPc (w : Word) (r : Reg) : (s.setPc w).readV r = s.readV r := rfl
@[simp] theorem State.readByte_setPc (w : Word) (k : Nat) : (s.setPc w).readByte k = s.readByte k := rfl
@[simp] theorem State.readV_advance (r : Reg) : (s.advance).readV r = s.readV r := rfl
@[simp] theorem State.readByte_advance (k : Nat) : (s.advance).readByte k = s.readByte k := rfl
@[simp] theorem State.readV_setSp (w : Word) (r : Reg) : (s.setSp w).readV r = s.readV r := rfl
@[simp] theorem State.readByte_setSp (w : Word) (k : Nat) : (s.setSp w).readByte k = s.readByte k := rfl
@[simp] theorem State.readV_skipIf (c : Bool) (r : Reg) : (s.skipIf c).readV r = s.readV r := rfl
@[simp] theorem State.readByte_skipIf (c : Bool) (k : Nat) : (s.skipIf c).readByte k = s.readByte k := rfl
@[simp] theorem State.readV_drawTaken (r : Reg) : (s.drawTaken).readV r = s.readV r := rfl
@[simp] theorem State.readByte_drawTaken (k : Nat) : (s.drawTaken).readByte k = s.readByte k := rfl
@[simp] theorem State.readV_storeWord (a : Nat) (v : Word) (r : Reg) : (s.storeWord a v).readV r = s.readV r := rfl
@[simp] theorem State.readV_takeFault (c : Cause) (op : Option Word) (r : Reg) : (s.takeFault c op).readV r = s.readV r := rfl
@[simp] theorem State.readByte_takeFault (c : Cause) (op : Option Word) (k : Nat) : (s.takeFault c op).readByte k = s.readByte k := rfl
@[simp] theorem State.readByte_writeResultFlag (x : Reg) (b : Byte) (f : Bool) (k : Nat) : (s.writeResultFlag x b f).readByte k = s.readByte k := rfl

/-- Every register of a fresh instance reads zero (R26). -/
@[simp] theorem State.reset_readV (r : Reg) : State.reset.readV r = 0x00#8 := by
  simp [State.readV, State.reset]

end Sys2Proof.Machine
end

