-- ==== Sys2Proof/Laws/Memory.lean ====
section
/-! SUPPORT. Memory: a read after a write, every other byte, and that every memory operation keeps the
canonical form. -/

namespace Sys2Proof.Machine

open Sys2Proof

/-! ### Reading after writing -/

@[simp] theorem Memory.readByte_consCell_self (a : Nat) (b : Byte) (m : Memory)
    (h : m.readByte a = Memory.unlisted) : (Memory.consCell a b m).readByte a = b := by
  unfold Memory.consCell
  split
  · simp [*]
  · simp [Memory.readByte]

@[simp] theorem Memory.readByte_consCell_ne {a k : Nat} (b : Byte) (m : Memory) (h : k ≠ a) :
    (Memory.consCell a b m).readByte k = m.readByte k := by
  unfold Memory.consCell
  split
  · rfl
  · simp [Memory.readByte, Ne.symm h]

/-- Below the first address of a rising list nothing is listed. -/
theorem Memory.readByte_of_lt : ∀ {m : Memory} {lo a : Nat},
    Memory.risingFrom lo m = true → a < lo → m.readByte a = Memory.unlisted
  | [], _, _, _, _ => rfl
  | c :: rest, lo, a, h, ha => by
    simp only [Memory.risingFrom, Bool.and_eq_true, decide_eq_true_eq] at h
    have hne : c.1 ≠ a := by omega
    simpa [Memory.readByte, hne] using Memory.readByte_of_lt h.2 (by omega : a < c.1 + 1)

/-- A rising list may start lower. -/
theorem Memory.risingFrom_mono : ∀ {m : Memory} {lo lo' : Nat},
    lo' ≤ lo → Memory.risingFrom lo m = true → Memory.risingFrom lo' m = true
  | [], _, _, _, _ => rfl
  | c :: rest, lo, lo', hle, h => by
    simp only [Memory.risingFrom, Bool.and_eq_true, decide_eq_true_eq] at h ⊢
    exact ⟨by omega, h.2⟩

/-- The byte written is the byte read. -/
theorem Memory.readByte_writeByte_self : ∀ {m : Memory} {lo : Nat} (a : Nat) (b : Byte),
    Memory.risingFrom lo m = true → (m.writeByte a b).readByte a = b
  | [], _, a, b, _ => by simpa [Memory.writeByte] using Memory.readByte_consCell_self a b [] rfl
  | c :: rest, lo, a, b, h => by
    have hr := h
    simp only [Memory.risingFrom, Bool.and_eq_true, decide_eq_true_eq] at hr
    unfold Memory.writeByte
    split
    · next hlt =>
      exact Memory.readByte_consCell_self a b _
        (by simpa [Memory.readByte, Nat.ne_of_gt hlt] using
          Memory.readByte_of_lt hr.2 (by omega : a < c.1 + 1))
    · split
      · next heq =>
        exact Memory.readByte_consCell_self a b _
          (Memory.readByte_of_lt hr.2 (by omega : a < c.1 + 1))
      · next hne =>
        simpa [Memory.readByte, Ne.symm hne] using Memory.readByte_writeByte_self a b hr.2

/-- Every other byte reads as before, in any list. -/
@[simp] theorem Memory.readByte_writeByte_ne : ∀ {m : Memory} {a k : Nat} (b : Byte),
    k ≠ a → (m.writeByte a b).readByte k = m.readByte k
  | [], a, k, b, h => by simp [Memory.writeByte, h]
  | c :: rest, a, k, b, h => by
    unfold Memory.writeByte
    split
    · simp [h]
    · split
      · next heq => simp [h, Memory.readByte, show c.1 ≠ k by omega]
      · simp [Memory.readByte, Memory.readByte_writeByte_ne b h]

/-! ### The canonical form -/

/-- The canonical form as its two facts. -/
theorem Memory.wf_iff (m : Memory) : m.wf = true ↔
    Memory.risingFrom 0 m = true ∧ ∀ c ∈ m, c.1 < Config.memSize ∧ c.2 ≠ Memory.unlisted := by
  simp [Memory.wf]

theorem Memory.wf_rising {m : Memory} (h : m.wf = true) : Memory.risingFrom 0 m = true :=
  ((Memory.wf_iff m).1 h).1

/-- A write keeps the addresses rising. -/
theorem Memory.risingFrom_writeByte : ∀ {m : Memory} {lo : Nat} (a : Nat) (b : Byte),
    lo ≤ a → Memory.risingFrom lo m = true → Memory.risingFrom lo (m.writeByte a b) = true
  | [], lo, a, b, hle, _ => by
    unfold Memory.writeByte Memory.consCell
    split <;> simp [Memory.risingFrom, hle]
  | c :: rest, lo, a, b, hle, h => by
    have hr := h
    simp only [Memory.risingFrom, Bool.and_eq_true, decide_eq_true_eq] at hr
    unfold Memory.writeByte
    split
    · next hlt =>
      unfold Memory.consCell
      split
      · exact h
      · simp [Memory.risingFrom, hle, hr.2]; omega
    · split
      · next heq =>
        unfold Memory.consCell
        split
        · exact Memory.risingFrom_mono (by omega) hr.2
        · subst heq
          simp [Memory.risingFrom, hle, hr.2]
      · next hge hne =>
        simpa [Memory.risingFrom, hr.1] using
          Memory.risingFrom_writeByte (lo := c.1 + 1) a b (by omega) hr.2

/-- Every cell after a write was there before, or is the cell written. -/
theorem Memory.mem_writeByte : ∀ {m : Memory} {a : Nat} {b : Byte} {c : Host.Cell},
    c ∈ m.writeByte a b → c ∈ m ∨ (c = (a, b) ∧ b ≠ Memory.unlisted)
  | [], a, b, c, h => by
    unfold Memory.writeByte Memory.consCell at h
    split at h <;> simp_all
  | d :: rest, a, b, c, h => by
    unfold Memory.writeByte at h
    split at h
    · unfold Memory.consCell at h
      split at h <;> simp_all
      tauto
    · split at h
      · unfold Memory.consCell at h
        split at h <;> simp_all
        tauto
      · rcases List.mem_cons.1 h with rfl | h
        · simp
        · rcases Memory.mem_writeByte h with h | h
          · simp [h]
          · exact .inr h

/-- A write of one byte inside memory keeps the canonical form. -/
theorem Memory.wf_writeByte {m : Memory} {a : Nat} (b : Byte) (h : m.wf = true)
    (ha : a < Config.memSize) : (m.writeByte a b).wf = true := by
  rw [Memory.wf_iff] at h ⊢
  refine ⟨Memory.risingFrom_writeByte a b (Nat.zero_le _) h.1, fun c hc => ?_⟩
  rcases Memory.mem_writeByte hc with hc | ⟨rfl, hb⟩
  · exact h.2 c hc
  · exact ⟨ha, hb⟩

/-- A store of two bytes inside memory keeps the canonical form. -/
theorem State.wf_storeWord {s : State} {a : Nat} (v : Word) (h : s.mem.wf = true)
    (ha : a + 2 ≤ Config.memSize) : (s.storeWord a v).mem.wf = true :=
  Memory.wf_writeByte _ (Memory.wf_writeByte _ h (by omega)) (by omega)

/-- The loader keeps the canonical form. -/
theorem Memory.wf_writeBytes : ∀ (bytes : List Byte) {m : Memory} {a : Nat},
    m.wf = true → a + bytes.length ≤ Config.memSize → (m.writeBytes a bytes).wf = true
  | [], _, _, h, _ => h
  | b :: rest, m, a, h, ha => by
    simp only [List.length_cons] at ha
    exact Memory.wf_writeBytes rest (Memory.wf_writeByte b h (by omega)) (by omega)

/-- A fresh instance's memory is canonical: nothing is listed (R26). -/
theorem State.reset_mem_wf : State.reset.mem.wf = true := rfl

/-! ### Words -/

@[simp] theorem highByte_wordOfBytes (hi lo : Byte) : highByte (wordOfBytes hi lo) = hi := by
  apply BitVec.eq_of_getLsbD_eq
  intro i h
  simp only [highByte, wordOfBytes, BitVec.getLsbD_extractLsb', BitVec.getLsbD_append, h]
  simp

@[simp] theorem lowByte_wordOfBytes (hi lo : Byte) : lowByte (wordOfBytes hi lo) = lo := by
  apply BitVec.eq_of_getLsbD_eq
  intro i h
  simp only [lowByte, wordOfBytes, BitVec.getLsbD_extractLsb', BitVec.getLsbD_append, h]
  simp [h]

@[simp] theorem wordOfBytes_bytes (w : Word) : wordOfBytes (highByte w) (lowByte w) = w := by
  apply BitVec.eq_of_getLsbD_eq
  intro i h
  simp only [highByte, lowByte, wordOfBytes, BitVec.getLsbD_append, BitVec.getLsbD_extractLsb']
  by_cases h8 : i < 8
  · simp [h8]
  · simp [h8, show i - 8 < 8 by omega, show 8 + (i - 8) = i by omega]

/-- The two bytes of a store, and every other byte (20_memory.md R32). -/
theorem State.readByte_storeWord {s : State} (h : Memory.risingFrom 0 s.mem = true) (a k : Nat)
    (v : Word) : (s.storeWord a v).readByte k =
      if k = a then highByte v else if k = a + 1 then lowByte v else s.readByte k := by
  have h' := Memory.risingFrom_writeByte a (highByte v) (Nat.zero_le _) h
  unfold State.storeWord State.readByte
  by_cases h1 : k = a
  · subst h1
    simp [Memory.readByte_writeByte_self _ _ h]
  · by_cases h2 : k = a + 1
    · subst h2
      simp [Memory.readByte_writeByte_self _ _ h']
    · simp [h1, h2]

/-- Every byte outside a store reads as before, in any memory. -/
theorem State.readByte_storeWord_ne (s : State) {a k : Nat} (v : Word) (h1 : k ≠ a) (h2 : k ≠ a + 1) :
    (s.storeWord a v).readByte k = s.readByte k := by
  simp [State.storeWord, State.readByte, h1, h2]

end Sys2Proof.Machine
end

