-- ==== Sys2Proof/Laws/Ops.lean ====
section
/-! SUPPORT. One lemma for each shared operation that says everything it can do: the memory primitives,
the stack helpers, the fetch, the commit of a handler, and the step. -/

namespace Sys2Proof.Machine

open Sys2Proof

variable {s t : State}

/-! ### Memory primitives (20_memory.md R31 to R33) -/

theorem inMemory_iff (a : Word) (n : Nat) : inMemory a n = true ↔ a.toNat + n ≤ 4096 := by
  simp only [inMemory, Config.memSize, decide_eq_true_eq]

/-- A two-byte read inside memory. -/
theorem State.memRead16_ok {a : Word} (h : a.toNat + 2 ≤ 4096) :
    s.memRead16 a = .ok (wordOfBytes (s.readByte a.toNat) (s.readByte (a.toNat + 1))) := by
  simp [State.memRead16, (inMemory_iff a 2).2 h]

/-- A two-byte read that leaves memory. -/
theorem State.memRead16_error {a : Word} (h : ¬ a.toNat + 2 ≤ 4096) :
    s.memRead16 a = .error .memOutOfRange := by
  simp [State.memRead16, mt (inMemory_iff a 2).1 h]

/-- A two-byte write inside memory. -/
theorem State.memWrite16_ok {a v : Word} (h : a.toNat + 2 ≤ 4096) :
    s.memWrite16 a v = .ok (s.storeWord a.toNat v) := by
  simp [State.memWrite16, (inMemory_iff a 2).2 h]

/-- A two-byte write that leaves memory. -/
theorem State.memWrite16_error {a v : Word} (h : ¬ a.toNat + 2 ≤ 4096) :
    s.memWrite16 a v = .error .memOutOfRange := by
  simp [State.memWrite16, mt (inMemory_iff a 2).1 h]

/-! ### Stack helpers (R35, R36) -/

/-- A push whose slot is inside memory. -/
theorem State.push16_ok {v : Word} (h : s.pushAddr.toNat + 2 ≤ 4096) :
    s.push16 v = .ok ((s.setSp s.pushAddr).storeWord s.pushAddr.toNat v) := by
  simp [State.push16, State.memWrite16_ok h]

/-- A pop whose slot is inside memory. -/
theorem State.pop16_ok (h : s.sp.toNat + 2 ≤ 4096) :
    s.pop16 = .ok (wordOfBytes (s.readByte s.sp.toNat) (s.readByte (s.sp.toNat + 1)),
      s.setSp (s.sp - 2#16)) := by
  simp [State.pop16, State.memRead16_ok h, Config.slotBytes]

/-- A pop whose slot leaves memory. -/
theorem State.pop16_error (h : ¬ s.sp.toNat + 2 ≤ 4096) : s.pop16 = .error .memOutOfRange := by
  simp [State.pop16, State.memRead16_error h]

/-- The push address when the stack is not full: exact, and inside memory. -/
theorem State.pushAddr_toNat (h : s.stackFull = false) :
    s.pushAddr.toNat = s.sp.toNat + 2 ∧ s.pushAddr.toNat + 2 ≤ 4096 := by
  simp only [State.stackFull, Config.spMax, decide_eq_false_iff_not, BitVec.le_def,
    BitVec.toNat_ofNat] at h
  simp only [State.pushAddr, Config.slotBytes, BitVec.toNat_add, BitVec.toNat_ofNat]
  omega

/-! ### The two handlers that use the stack -/

/-- CALL on a stack that is not full (40_control_transfer.md R58). -/
theorem execCall_ok (nnn : Addr12) (h : s.stackFull = false) :
    execCall nnn s = .next
      (((s.setSp s.pushAddr).storeWord s.pushAddr.toNat s.returnAddr).setPc (addrOperand nnn)) := by
  simp [execCall, commit, h, State.push16_ok (State.pushAddr_toNat h).2, Except.map]

/-- CALL on a full stack (R58). -/
theorem execCall_full (nnn : Addr12) (h : s.stackFull = true) :
    execCall nnn s = .next (s.takeFault .stackOverflow (some (encode (.call nnn)))) := by
  simp [execCall, commit, h]

/-- RET from a slot inside memory (R59). -/
theorem execRet_ok (h : s.stackEmpty = false) (hm : s.sp.toNat + 2 ≤ 4096) :
    execRet s = .next ((s.setSp (s.sp - 2#16)).setPc
      (wordOfBytes (s.readByte s.sp.toNat) (s.readByte (s.sp.toNat + 1)))) := by
  simp [execRet, commit, h, State.pop16_ok hm, Except.map]

/-- RET on an empty stack (R59). -/
theorem execRet_empty (h : s.stackEmpty = true) :
    execRet s = .next (s.takeFault .stackUnderflow (some (encode .ret))) := by
  simp [execRet, commit, h]

/-- RET where the slot leaves memory, which no legal `sp` allows (20_memory.md R33). -/
theorem execRet_outside (h : s.stackEmpty = false) (hm : ¬ s.sp.toNat + 2 ≤ 4096) :
    execRet s = .next (s.takeFault .memOutOfRange (some (encode .ret))) := by
  simp [execRet, commit, h, State.pop16_error hm, Except.map]

/-! ### Fetch (20_memory.md R38) -/

theorem State.fetch_outOfRange (h : Config.pcMax < s.pc) : s.fetch = .error .fetchOutOfRange := by
  simp [State.fetch, h]

theorem State.fetch_misaligned (h : ¬ Config.pcMax < s.pc) (ho : s.pc[0] = true) :
    s.fetch = .error .fetchMisaligned := by
  simp [State.fetch, h, ho]

theorem State.fetch_ok (h : ¬ Config.pcMax < s.pc) (ho : s.pc[0] = false) :
    s.fetch = .ok (wordOfBytes (s.readByte s.pc.toNat) (s.readByte (s.pc.toNat + 1))) := by
  have hm : s.pc.toNat + 2 ≤ 4096 := by
    simp only [Config.pcMax, BitVec.lt_def, BitVec.toNat_ofNat] at h
    omega
  simp [State.fetch, h, ho, State.memRead16_ok hm]

/-- Everything a fetch can answer. -/
theorem State.fetch_cases (s : State) :
    (Config.pcMax < s.pc ∧ s.fetch = .error .fetchOutOfRange) ∨
    (¬ Config.pcMax < s.pc ∧ s.pc[0] = true ∧ s.fetch = .error .fetchMisaligned) ∨
    (¬ Config.pcMax < s.pc ∧ s.pc[0] = false ∧
      s.fetch = .ok (wordOfBytes (s.readByte s.pc.toNat) (s.readByte (s.pc.toNat + 1)))) := by
  by_cases h : Config.pcMax < s.pc
  · exact .inl ⟨h, State.fetch_outOfRange h⟩
  · cases ho : s.pc[0]
    · exact .inr (.inr ⟨h, rfl, State.fetch_ok h ho⟩)
    · exact .inr (.inl ⟨h, rfl, State.fetch_misaligned h ho⟩)

/-! ### The step (30_encoding.md R54) -/

/-- A fault of the fetch is taken with no opcode. -/
theorem step_of_fetch_error {c : Cause} (hr : s.status = .run) (h : s.fetch = .error c) :
    step s = .next (s.takeFault c none) := by
  simp [step, hr, State.fetchInstr, h]

/-- A word without a handler is a fault with its opcode. -/
theorem step_of_decode_error {op : Word} {e : DecodeError} (hr : s.status = .run)
    (h : s.fetch = .ok op) (hd : decode op = .error e) :
    step s = .next (s.takeFault .decodeError (some op)) := by
  simp [step, hr, State.fetchInstr, h, hd]

/-- Otherwise the handler runs. -/
theorem step_of_decode_ok {op : Word} {i : Instr} (hr : s.status = .run)
    (h : s.fetch = .ok op) (hd : decode op = .ok i) : step s = exec i s := by
  simp [step, hr, State.fetchInstr, h, hd]

/-- Everything a step can do. -/
theorem step_cases (s : State) :
    (s.status ≠ .run ∧ step s = .fault .noStepAfterFault) ∨
    (s.status = .run ∧ ∃ c, s.fetch = .error c ∧ step s = .next (s.takeFault c none)) ∨
    (s.status = .run ∧ ∃ op e, s.fetch = .ok op ∧ decode op = .error e ∧
      step s = .next (s.takeFault .decodeError (some op))) ∨
    (s.status = .run ∧ ∃ op i, s.fetch = .ok op ∧ decode op = .ok i ∧ step s = exec i s) := by
  cases hs : s.status with
  | fault c p op => exact .inl ⟨by simp, by simp [step, hs]⟩
  | run =>
    cases hf : s.fetch with
    | error c => exact .inr (.inl ⟨rfl, c, rfl, step_of_fetch_error hs hf⟩)
    | ok op =>
      cases hd : decode op with
      | error e => exact .inr (.inr (.inl ⟨rfl, op, e, rfl, hd, step_of_decode_error hs hf hd⟩))
      | ok i => exact .inr (.inr (.inr ⟨rfl, op, i, rfl, hd, step_of_decode_ok hs hf hd⟩))

/-! ### Runs -/

/-- One step and then the rest. -/
theorem runSteps_succ {n : Nat} (h : step s = .next t) : runSteps (n + 1) s = runSteps n t := by
  rw [runSteps, h]

/-- A run that starts where the machine stops answers the stop. -/
theorem runSteps_succ_fault {n : Nat} {r : Fault} (h : step s = .fault r) :
    runSteps (n + 1) s = .fault r := by
  rw [runSteps, h]

/-- The host's run of any machine, one step and then the rest. -/
theorem hostRun_succ (M : Host.Core) (n : Nat) (s : M.State) :
    (∀ t, M.step s = .next t → M.run (n + 1) s = M.run n t) ∧
    (∀ r, M.step s = .fault r → M.run (n + 1) s = .fault r) ∧
    (∀ r, M.step s = .refused r → M.run (n + 1) s = .refused r) := by
  refine ⟨fun t h => ?_, fun r h => ?_, fun r h => ?_⟩ <;> rw [Host.Core.run, h]

/-- `runSteps` is the host's run of this core. -/
theorem runSteps_eq_core_run (n : Nat) (s : State) : runSteps n s = core.run n s := by
  induction n generalizing s with
  | zero => rfl
  | succ n ih =>
    have hc := hostRun_succ core n s
    cases h : step s with
    | next t => exact (runSteps_succ h).trans ((ih t).trans (hc.1 t h).symm)
    | fault r => exact (runSteps_succ_fault h).trans (hc.2.1 r h).symm
    | refused r => exact (by rw [runSteps, h] : runSteps (n + 1) s = .refused r).trans (hc.2.2 r h).symm

end Sys2Proof.Machine
end

