-- ==== Sys2Proof/Laws/PerInstr.lean ====
section
/-! SUPPORT. Two families of statements made per instruction, about its encoding: decoding the encoded
instruction gives it back, and its word is claimed by its own row of the opcode table. -/

namespace Sys2Proof.Laws

open Sys2Proof

/-! ### Decoding a packed word, given its family's entry in the tables -/

theorem decode_of_leadOf {op : Word} {r : Except DecodeError Instr} (h0 : leadOf op ≠ 0#4)
    (h : lookup op = r) : decode op = r := by
  simp [decode, ne_ret_of_leadOf h0, h]

/-! ### What a row's mask leaves of a packed word -/

theorem packNnn_and_mask (l : BitVec 4) (n : Addr12) :
    packNnn l n &&& 0xF000#16 = packNnn l 0#12 := by
  apply BitVec.eq_of_getLsbD_eq
  intro i h
  simp only [packNnn, BitVec.getLsbD_and, BitVec.getLsbD_append]
  interval_cases i <;> simp

theorem packXnn_and_mask (l : BitVec 4) (x : Reg) (nn : Byte) :
    packXnn l x nn &&& 0xF000#16 = packNnn l 0#12 := by
  apply BitVec.eq_of_getLsbD_eq
  intro i h
  simp only [packXnn, packNnn, BitVec.getLsbD_and, BitVec.getLsbD_append]
  interval_cases i <;> simp

theorem packXy_and_mask (l : BitVec 4) (x y : Reg) (n : BitVec 4) :
    packXy l x y n &&& 0xF00F#16 = packXy l 0 0 n := by
  apply BitVec.eq_of_getLsbD_eq
  intro i h
  simp only [packXy, BitVec.getLsbD_and, BitVec.getLsbD_append]
  interval_cases i <;> simp [regBits]

/-! ### Decoding an encoded instruction gives it back -/

/-- The decoder reads from an instruction's word that instruction (30_encoding.md R45 to R49). -/
def RoundTrip.Statement (i : Instr) : Prop := decode (encode i) = .ok i

theorem RoundTrip.ret : RoundTrip.Statement .ret := rfl

theorem RoundTrip.jp (nnn : Addr12) : RoundTrip.Statement (.jp nnn) := by
  have h := leadOf_packNnn 0x1#4 nnn
  exact decode_of_leadOf (by rw [encode, h]; decide) (by simp [lookup, encode, h, nnnOf_packNnn])

theorem RoundTrip.call (nnn : Addr12) : RoundTrip.Statement (.call nnn) := by
  have h := leadOf_packNnn 0x2#4 nnn
  exact decode_of_leadOf (by rw [encode, h]; decide) (by simp [lookup, encode, h, nnnOf_packNnn])

theorem RoundTrip.seImm (x : Reg) (nn : Byte) : RoundTrip.Statement (.seImm x nn) := by
  have h := leadOf_packXnn 0x3#4 x nn
  exact decode_of_leadOf (by rw [encode, h]; decide)
    (by simp [lookup, encode, h, xOf_packXnn, nnOf_packXnn])

theorem RoundTrip.sneImm (x : Reg) (nn : Byte) : RoundTrip.Statement (.sneImm x nn) := by
  have h := leadOf_packXnn 0x4#4 x nn
  exact decode_of_leadOf (by rw [encode, h]; decide)
    (by simp [lookup, encode, h, xOf_packXnn, nnOf_packXnn])

theorem RoundTrip.seReg (x y : Reg) : RoundTrip.Statement (.seReg x y) := by
  have h := leadOf_packXy 0x5#4 x y 0x0#4
  exact decode_of_leadOf (by rw [encode, h]; decide)
    (by simp [lookup, encode, h, xOf_packXy, yOf_packXy, n4Of_packXy])

theorem RoundTrip.ldImm (x : Reg) (nn : Byte) : RoundTrip.Statement (.ldImm x nn) := by
  have h := leadOf_packXnn 0x6#4 x nn
  exact decode_of_leadOf (by rw [encode, h]; decide)
    (by simp [lookup, encode, h, xOf_packXnn, nnOf_packXnn])

theorem RoundTrip.addImm (x : Reg) (nn : Byte) : RoundTrip.Statement (.addImm x nn) := by
  have h := leadOf_packXnn 0x7#4 x nn
  exact decode_of_leadOf (by rw [encode, h]; decide)
    (by simp [lookup, encode, h, xOf_packXnn, nnOf_packXnn])

theorem RoundTrip.ldReg (x y : Reg) : RoundTrip.Statement (.ldReg x y) := by
  have h := leadOf_packXy 0x8#4 x y 0x0#4
  exact decode_of_leadOf (by rw [encode, h]; decide)
    (by simp [lookup, lookupAlu, encode, h, xOf_packXy, yOf_packXy, n4Of_packXy])

theorem RoundTrip.orReg (x y : Reg) : RoundTrip.Statement (.orReg x y) := by
  have h := leadOf_packXy 0x8#4 x y 0x1#4
  exact decode_of_leadOf (by rw [encode, h]; decide)
    (by simp [lookup, lookupAlu, encode, h, xOf_packXy, yOf_packXy, n4Of_packXy])

theorem RoundTrip.andReg (x y : Reg) : RoundTrip.Statement (.andReg x y) := by
  have h := leadOf_packXy 0x8#4 x y 0x2#4
  exact decode_of_leadOf (by rw [encode, h]; decide)
    (by simp [lookup, lookupAlu, encode, h, xOf_packXy, yOf_packXy, n4Of_packXy])

theorem RoundTrip.xorReg (x y : Reg) : RoundTrip.Statement (.xorReg x y) := by
  have h := leadOf_packXy 0x8#4 x y 0x3#4
  exact decode_of_leadOf (by rw [encode, h]; decide)
    (by simp [lookup, lookupAlu, encode, h, xOf_packXy, yOf_packXy, n4Of_packXy])

theorem RoundTrip.addReg (x y : Reg) : RoundTrip.Statement (.addReg x y) := by
  have h := leadOf_packXy 0x8#4 x y 0x4#4
  exact decode_of_leadOf (by rw [encode, h]; decide)
    (by simp [lookup, lookupAlu, encode, h, xOf_packXy, yOf_packXy, n4Of_packXy])

theorem RoundTrip.subReg (x y : Reg) : RoundTrip.Statement (.subReg x y) := by
  have h := leadOf_packXy 0x8#4 x y 0x5#4
  exact decode_of_leadOf (by rw [encode, h]; decide)
    (by simp [lookup, lookupAlu, encode, h, xOf_packXy, yOf_packXy, n4Of_packXy])

theorem RoundTrip.shrReg (x y : Reg) : RoundTrip.Statement (.shrReg x y) := by
  have h := leadOf_packXy 0x8#4 x y 0x6#4
  exact decode_of_leadOf (by rw [encode, h]; decide)
    (by simp [lookup, lookupAlu, encode, h, xOf_packXy, yOf_packXy, n4Of_packXy])

theorem RoundTrip.subnReg (x y : Reg) : RoundTrip.Statement (.subnReg x y) := by
  have h := leadOf_packXy 0x8#4 x y 0x7#4
  exact decode_of_leadOf (by rw [encode, h]; decide)
    (by simp [lookup, lookupAlu, encode, h, xOf_packXy, yOf_packXy, n4Of_packXy])

theorem RoundTrip.shlReg (x y : Reg) : RoundTrip.Statement (.shlReg x y) := by
  have h := leadOf_packXy 0x8#4 x y 0xE#4
  exact decode_of_leadOf (by rw [encode, h]; decide)
    (by simp [lookup, lookupAlu, encode, h, xOf_packXy, yOf_packXy, n4Of_packXy])

theorem RoundTrip.sneReg (x y : Reg) : RoundTrip.Statement (.sneReg x y) := by
  have h := leadOf_packXy 0x9#4 x y 0x0#4
  exact decode_of_leadOf (by rw [encode, h]; decide)
    (by simp [lookup, encode, h, xOf_packXy, yOf_packXy, n4Of_packXy])

theorem RoundTrip.ldI (nnn : Addr12) : RoundTrip.Statement (.ldI nnn) := by
  have h := leadOf_packNnn 0xA#4 nnn
  exact decode_of_leadOf (by rw [encode, h]; decide) (by simp [lookup, encode, h, nnnOf_packNnn])

theorem RoundTrip.jpV0 (nnn : Addr12) : RoundTrip.Statement (.jpV0 nnn) := by
  have h := leadOf_packNnn 0xB#4 nnn
  exact decode_of_leadOf (by rw [encode, h]; decide) (by simp [lookup, encode, h, nnnOf_packNnn])

theorem RoundTrip.rnd (x : Reg) (nn : Byte) : RoundTrip.Statement (.rnd x nn) := by
  have h := leadOf_packXnn 0xC#4 x nn
  exact decode_of_leadOf (by rw [encode, h]; decide)
    (by simp [lookup, encode, h, xOf_packXnn, nnOf_packXnn])

/-! ### The word of an instruction belongs to the instruction's row -/

/-- The row of spec/opcode_table.json that has the instruction's nibble form claims its word. -/
def TableRow.Statement (i : Instr) : Prop :=
  ∃ row ∈ opcodeTable, row.form = i.form ∧ row.claims (encode i) = true

theorem TableRow.ret : TableRow.Statement .ret :=
  ⟨⟨"00EE", 0x00EE, 0xFFFF⟩, by decide, rfl, by decide⟩

theorem TableRow.jp (nnn : Addr12) : TableRow.Statement (.jp nnn) :=
  ⟨⟨"1nnn", 0x1000, 0xF000⟩, by decide, rfl, by
    simp only [OpcodeRow.claims, encode, BitVec.ofNat_eq_ofNat, packNnn_and_mask]; decide⟩

theorem TableRow.call (nnn : Addr12) : TableRow.Statement (.call nnn) :=
  ⟨⟨"2nnn", 0x2000, 0xF000⟩, by decide, rfl, by
    simp only [OpcodeRow.claims, encode, BitVec.ofNat_eq_ofNat, packNnn_and_mask]; decide⟩

theorem TableRow.seImm (x : Reg) (nn : Byte) : TableRow.Statement (.seImm x nn) :=
  ⟨⟨"3xnn", 0x3000, 0xF000⟩, by decide, rfl, by
    simp only [OpcodeRow.claims, encode, BitVec.ofNat_eq_ofNat, packXnn_and_mask]; decide⟩

theorem TableRow.sneImm (x : Reg) (nn : Byte) : TableRow.Statement (.sneImm x nn) :=
  ⟨⟨"4xnn", 0x4000, 0xF000⟩, by decide, rfl, by
    simp only [OpcodeRow.claims, encode, BitVec.ofNat_eq_ofNat, packXnn_and_mask]; decide⟩

theorem TableRow.seReg (x y : Reg) : TableRow.Statement (.seReg x y) :=
  ⟨⟨"5xy0", 0x5000, 0xF00F⟩, by decide, rfl, by
    simp only [OpcodeRow.claims, encode, BitVec.ofNat_eq_ofNat, packXy_and_mask]; decide⟩

theorem TableRow.ldImm (x : Reg) (nn : Byte) : TableRow.Statement (.ldImm x nn) :=
  ⟨⟨"6xnn", 0x6000, 0xF000⟩, by decide, rfl, by
    simp only [OpcodeRow.claims, encode, BitVec.ofNat_eq_ofNat, packXnn_and_mask]; decide⟩

theorem TableRow.addImm (x : Reg) (nn : Byte) : TableRow.Statement (.addImm x nn) :=
  ⟨⟨"7xnn", 0x7000, 0xF000⟩, by decide, rfl, by
    simp only [OpcodeRow.claims, encode, BitVec.ofNat_eq_ofNat, packXnn_and_mask]; decide⟩

theorem TableRow.ldReg (x y : Reg) : TableRow.Statement (.ldReg x y) :=
  ⟨⟨"8xy0", 0x8000, 0xF00F⟩, by decide, rfl, by
    simp only [OpcodeRow.claims, encode, BitVec.ofNat_eq_ofNat, packXy_and_mask]; decide⟩

theorem TableRow.orReg (x y : Reg) : TableRow.Statement (.orReg x y) :=
  ⟨⟨"8xy1", 0x8001, 0xF00F⟩, by decide, rfl, by
    simp only [OpcodeRow.claims, encode, BitVec.ofNat_eq_ofNat, packXy_and_mask]; decide⟩

theorem TableRow.andReg (x y : Reg) : TableRow.Statement (.andReg x y) :=
  ⟨⟨"8xy2", 0x8002, 0xF00F⟩, by decide, rfl, by
    simp only [OpcodeRow.claims, encode, BitVec.ofNat_eq_ofNat, packXy_and_mask]; decide⟩

theorem TableRow.xorReg (x y : Reg) : TableRow.Statement (.xorReg x y) :=
  ⟨⟨"8xy3", 0x8003, 0xF00F⟩, by decide, rfl, by
    simp only [OpcodeRow.claims, encode, BitVec.ofNat_eq_ofNat, packXy_and_mask]; decide⟩

theorem TableRow.addReg (x y : Reg) : TableRow.Statement (.addReg x y) :=
  ⟨⟨"8xy4", 0x8004, 0xF00F⟩, by decide, rfl, by
    simp only [OpcodeRow.claims, encode, BitVec.ofNat_eq_ofNat, packXy_and_mask]; decide⟩

theorem TableRow.subReg (x y : Reg) : TableRow.Statement (.subReg x y) :=
  ⟨⟨"8xy5", 0x8005, 0xF00F⟩, by decide, rfl, by
    simp only [OpcodeRow.claims, encode, BitVec.ofNat_eq_ofNat, packXy_and_mask]; decide⟩

theorem TableRow.shrReg (x y : Reg) : TableRow.Statement (.shrReg x y) :=
  ⟨⟨"8xy6", 0x8006, 0xF00F⟩, by decide, rfl, by
    simp only [OpcodeRow.claims, encode, BitVec.ofNat_eq_ofNat, packXy_and_mask]; decide⟩

theorem TableRow.subnReg (x y : Reg) : TableRow.Statement (.subnReg x y) :=
  ⟨⟨"8xy7", 0x8007, 0xF00F⟩, by decide, rfl, by
    simp only [OpcodeRow.claims, encode, BitVec.ofNat_eq_ofNat, packXy_and_mask]; decide⟩

theorem TableRow.shlReg (x y : Reg) : TableRow.Statement (.shlReg x y) :=
  ⟨⟨"8xyE", 0x800E, 0xF00F⟩, by decide, rfl, by
    simp only [OpcodeRow.claims, encode, BitVec.ofNat_eq_ofNat, packXy_and_mask]; decide⟩

theorem TableRow.sneReg (x y : Reg) : TableRow.Statement (.sneReg x y) :=
  ⟨⟨"9xy0", 0x9000, 0xF00F⟩, by decide, rfl, by
    simp only [OpcodeRow.claims, encode, BitVec.ofNat_eq_ofNat, packXy_and_mask]; decide⟩

theorem TableRow.ldI (nnn : Addr12) : TableRow.Statement (.ldI nnn) :=
  ⟨⟨"Annn", 0xA000, 0xF000⟩, by decide, rfl, by
    simp only [OpcodeRow.claims, encode, BitVec.ofNat_eq_ofNat, packNnn_and_mask]; decide⟩

theorem TableRow.jpV0 (nnn : Addr12) : TableRow.Statement (.jpV0 nnn) :=
  ⟨⟨"Bnnn", 0xB000, 0xF000⟩, by decide, rfl, by
    simp only [OpcodeRow.claims, encode, BitVec.ofNat_eq_ofNat, packNnn_and_mask]; decide⟩

theorem TableRow.rnd (x : Reg) (nn : Byte) : TableRow.Statement (.rnd x nn) :=
  ⟨⟨"Cxnn", 0xC000, 0xF000⟩, by decide, rfl, by
    simp only [OpcodeRow.claims, encode, BitVec.ofNat_eq_ofNat, packXnn_and_mask]; decide⟩

end Sys2Proof.Laws
end

