-- ==== Sys2Proof/Machine/Assembly.lean ====
section
/-! DEFINITION. The assembler spelling of an instruction (30_encoding.md R56, 92_eei_decisions.md D14):
the mnemonics, `V0`..`VF`, and numbers written in hex as `0x..`. It carries no meaning. -/

namespace Sys2Proof.Machine

open Sys2Proof

/-- One upper-case hex digit. -/
def hexDigit (n : Fin 16) : String :=
  match n.val with
  | 0x0 => "0" | 0x1 => "1" | 0x2 => "2" | 0x3 => "3" | 0x4 => "4" | 0x5 => "5" | 0x6 => "6" | 0x7 => "7"
  | 0x8 => "8" | 0x9 => "9" | 0xA => "A" | 0xB => "B" | 0xC => "C" | 0xD => "D" | 0xE => "E" | _ => "F"

/-- A register, `V0`..`VF`. -/
def asmReg (r : Reg) : String := "V" ++ hexDigit r

/-- An 8-bit number, `0x..`. -/
def asmImm (nn : Byte) : String :=
  "0x" ++ hexDigit (nn.extractLsb' 4 4).toFin ++ hexDigit (nn.extractLsb' 0 4).toFin

/-- A 12-bit address, `0x...`. -/
def asmAddr (nnn : Addr12) : String :=
  "0x" ++ hexDigit (nnn.extractLsb' 8 4).toFin ++ hexDigit (nnn.extractLsb' 4 4).toFin
    ++ hexDigit (nnn.extractLsb' 0 4).toFin

/-- A mnemonic with one or two operands. -/
def asmLine (name a b : String) : String := name ++ " " ++ a ++ ", " ++ b

/-- The line of an instruction (the table of R56). -/
def asm : Instr → String
  | .ret => "RET"
  | .jp nnn => "JP " ++ asmAddr nnn
  | .call nnn => "CALL " ++ asmAddr nnn
  | .seImm x nn => asmLine "SE" (asmReg x) (asmImm nn)
  | .sneImm x nn => asmLine "SNE" (asmReg x) (asmImm nn)
  | .seReg x y => asmLine "SE" (asmReg x) (asmReg y)
  | .ldImm x nn => asmLine "LD" (asmReg x) (asmImm nn)
  | .addImm x nn => asmLine "ADD" (asmReg x) (asmImm nn)
  | .ldReg x y => asmLine "LD" (asmReg x) (asmReg y)
  | .orReg x y => asmLine "OR" (asmReg x) (asmReg y)
  | .andReg x y => asmLine "AND" (asmReg x) (asmReg y)
  | .xorReg x y => asmLine "XOR" (asmReg x) (asmReg y)
  | .addReg x y => asmLine "ADD" (asmReg x) (asmReg y)
  | .subReg x y => asmLine "SUB" (asmReg x) (asmReg y)
  | .shrReg x y => asmLine "SHR" (asmReg x) (asmReg y)
  | .subnReg x y => asmLine "SUBN" (asmReg x) (asmReg y)
  | .shlReg x y => asmLine "SHL" (asmReg x) (asmReg y)
  | .sneReg x y => asmLine "SNE" (asmReg x) (asmReg y)
  | .ldI nnn => asmLine "LD" "I" (asmAddr nnn)
  | .jpV0 nnn => asmLine "JP" "V0" (asmAddr nnn)
  | .rnd x nn => asmLine "RND" (asmReg x) (asmImm nn)

end Sys2Proof.Machine
end

