-- ==== Sys2Proof/Tests/Slice0.lean ====
section
/-! SUPPORT. The model's own tests: the WellFormed smoke tests, one written-out word per constructor,
vectors of spec/95_test_vectors.md (its ids are cited), and a witness for every statement of
Obligations.lean that has hypotheses, one per clause, at a boundary of its range. -/

namespace Sys2Proof.Tests

open Sys2Proof Sys2Proof.Machine

/-! ### WellFormed: each check refuses an ill-formed operand (30_encoding.md R46) -/

theorem test_reg_16_is_ill_formed : (Operand.reg 16).wellFormed = false := by decide
theorem test_imm_256_is_ill_formed : (Operand.imm 256).wellFormed = false := by decide
theorem test_addr_4096_is_ill_formed : (Operand.addr 4096).wellFormed = false := by decide
theorem test_largest_operands_are_well_formed :
    [Operand.reg 15, .imm 255, .addr 4095].all Operand.wellFormed = true := by decide

/-! ### Parameters: the derived rows of 00_scope.md R5 -/

theorem test_derived_parameters :
    Config.spInit = Config.stackBase - Config.slotBytes ∧ Config.spMax + 1#16 = Config.stackLimit ∧
    Config.stackDepth = (Config.stackLimit.toNat - Config.stackBase.toNat + 1) / 2 ∧
    Config.pcMax.toNat + 2 = Config.memSize := by decide

/-! ### Decode: one word per constructor, its bits from spec/opcode_table.json and the rule's encoding -/

theorem test_decode_ret : decode 0b0000000011101110#16 = .ok .ret := by decide
theorem test_decode_jp : decode 0b0001101010111100#16 = .ok (.jp 0xABC) := by decide
theorem test_decode_call : decode 0b0010001000000000#16 = .ok (.call 0x200) := by decide
theorem test_decode_seImm : decode 0b0011101001000010#16 = .ok (.seImm 10 0x42) := by decide
theorem test_decode_sneImm : decode 0b0100101001000010#16 = .ok (.sneImm 10 0x42) := by decide
theorem test_decode_seReg : decode 0b0101101010110000#16 = .ok (.seReg 10 11) := by decide
theorem test_decode_ldImm : decode 0b0110101001011100#16 = .ok (.ldImm 10 0x5C) := by decide
theorem test_decode_addImm : decode 0b0111101000001010#16 = .ok (.addImm 10 0x0A) := by decide
theorem test_decode_ldReg : decode 0b1000101010110000#16 = .ok (.ldReg 10 11) := by decide
theorem test_decode_orReg : decode 0b1000101010110001#16 = .ok (.orReg 10 11) := by decide
theorem test_decode_andReg : decode 0b1000101010110010#16 = .ok (.andReg 10 11) := by decide
theorem test_decode_xorReg : decode 0b1000101010110011#16 = .ok (.xorReg 10 11) := by decide
theorem test_decode_addReg : decode 0b1000101010110100#16 = .ok (.addReg 10 11) := by decide
theorem test_decode_subReg : decode 0b1000101010110101#16 = .ok (.subReg 10 11) := by decide
theorem test_decode_shrReg : decode 0b1000101010110110#16 = .ok (.shrReg 10 11) := by decide
theorem test_decode_subnReg : decode 0b1000101010110111#16 = .ok (.subnReg 10 11) := by decide
theorem test_decode_shlReg : decode 0b1000101010111110#16 = .ok (.shlReg 10 11) := by decide
theorem test_decode_sneReg : decode 0b1001101010110000#16 = .ok (.sneReg 10 11) := by decide
theorem test_decode_ldI : decode 0b1010000100100011#16 = .ok (.ldI 0x123) := by decide
theorem test_decode_jpV0 : decode 0b1011001100000000#16 = .ok (.jpV0 0x300) := by decide
theorem test_decode_rnd : decode 0b1100010100001111#16 = .ok (.rnd 5 0x0F) := by decide

/-- X1 to X4, X6, X7, X8, X11, X12 and X15: no word beside the table's decodes. -/
theorem test_decode_errors :
    [0x0000#16, 0x00E0#16, 0x00EF#16, 0x01EE#16, 0x5121#16, 0x912F#16, 0x8128#16, 0x812F#16, 0xD123#16,
      0xFFFF#16].all (fun w => (decode w).toOption.isNone) = true := by decide

/-- The 21 rows of the table are pairwise different in form, and none overlaps another. -/
theorem test_opcode_rows_do_not_overlap :
    opcodeTable.length = 21 ∧ opcodeTable.Pairwise (fun r q =>
      r.pattern &&& (r.mask &&& q.mask) ≠ q.pattern &&& (r.mask &&& q.mask)) := by decide

theorem test_table_word_is_big_endian : decodeTableWord 16 0x6A05 = some (.ldImm 10 0x05) := by decide
theorem test_asm_line : asm (.shrReg 10 0) = "SHR VA, V0" := by decide

/-! ### Steps: vectors of spec/95_test_vectors.md, Part 2 -/

/-- The base state of the vectors: a fresh instance at pc = 0x100 (§ Part 2). -/
def base : State := { State.reset with pc := 0x100#16 }

/-- The base state with some registers set. -/
def withV (l : List (Reg × Byte)) : State := l.foldl (fun s p => s.writeV p.1 p.2) base

/-- One step with a word at pc, and what `f` sees of the next state. -/
def after {α : Type} (s : State) (op : Nat) (f : State → α) : Option α :=
  match step (s.withFetchWord 16 op) with
  | .next t => some (f t)
  | .fault _ => none
  | .refused _ => none

/-- The pc and two registers. -/
def pcAnd (a b : Reg) (s : State) : Word × Byte × Byte := (s.pc, s.readV a, s.readV b)

/-- T1. -/
theorem test_jp : after base 0x1ABC (·.pc) = some 0xABC#16 := by decide
/-- T5: pc + 2 = 0x102 is pushed high byte first. -/
theorem test_call : after base 0x2200 (fun t => (t.pc, t.sp, t.readByte 0xEA0, t.readByte 0xEA1)) =
    some (0x200#16, 0xEA0#16, 0x01#8, 0x02#8) := by decide
/-- T8. -/
theorem test_call_full : after { base with sp := 0xEFE#16 } 0x2200 (fun t => (t.status, t.pc, t.sp)) =
    some (.fault .stackOverflow 0x100#16 (some 0x2200#16), 0x100#16, 0xEFE#16) := by decide
/-- T9. -/
theorem test_ret :
    after { base with sp := 0xEA0#16, mem := [(0xEA0, 0x03#8), (0xEA1, 0x46#8)] } 0x00EE
      (fun t => (t.pc, t.sp, t.readByte 0xEA1)) = some (0x346#16, 0xE9E#16, 0x46#8) := by decide
/-- T10. -/
theorem test_ret_empty : after base 0x00EE (fun t => (t.status, t.pc, t.sp)) =
    some (.fault .stackUnderflow 0x100#16 (some 0x00EE#16), 0x100#16, 0xE9E#16) := by decide
/-- T14: not masked. -/
theorem test_jpV0_not_masked : after (withV [(0, 0xFF#8)]) 0xBFFF (·.pc) = some 0x10FE#16 := by decide
/-- T16: V[0], whatever the x field. -/
theorem test_jpV0_reads_V0 : after (withV [(15, 0x22#8), (3, 0x33#8)]) 0xB300 (·.pc) = some 0x300#16 := by
  decide
/-- S4, S2. -/
theorem test_seImm : after (withV [(15, 0xFF#8)]) 0x3FFF (·.pc) = some 0x104#16 ∧
    after (withV [(10, 0x43#8)]) 0x3A42 (·.pc) = some 0x102#16 := by decide
/-- S5, S6. -/
theorem test_sneImm : after (withV [(10, 0x42#8)]) 0x4A42 (·.pc) = some 0x102#16 ∧
    after (withV [(10, 0x43#8)]) 0x4A42 (·.pc) = some 0x104#16 := by decide
/-- S8, S9. -/
theorem test_seReg : after (withV [(10, 0x07#8), (11, 0x07#8)]) 0x5AB0 (·.pc) = some 0x104#16 ∧
    after (withV [(10, 0x07#8), (11, 0x08#8)]) 0x5AB0 (·.pc) = some 0x102#16 := by decide
/-- S11, S12. -/
theorem test_sneReg : after (withV [(10, 0x07#8), (11, 0x07#8)]) 0x9AB0 (·.pc) = some 0x102#16 ∧
    after (withV [(10, 0x07#8), (11, 0x08#8)]) 0x9AB0 (·.pc) = some 0x104#16 := by decide
/-- S14: a skip at the top of memory. -/
theorem test_skip_at_top : after { base with pc := 0xFFE#16 } 0x3000 (fun t => (t.pc, t.status)) =
    some (0x1002#16, .run) := by decide
/-- I1. -/
theorem test_ldImm : after base 0x6A5C (pcAnd 10 15) = some (0x102#16, 0x5C#8, 0x00#8) := by decide
/-- I5, with VF set before: no flag. -/
theorem test_addImm_wraps : after (withV [(10, 0x01#8), (15, 0x55#8)]) 0x7AFF (pcAnd 10 15) =
    some (0x102#16, 0x00#8, 0x55#8) := by decide
/-- I6. -/
theorem test_addImm_vf : after (withV [(15, 0xFF#8)]) 0x7F01 (pcAnd 15 15) =
    some (0x102#16, 0x00#8, 0x00#8) := by decide
/-- I10. -/
theorem test_ldI : after base 0xAFFF (fun t => (t.I, t.pc)) = some (0xFFF#16, 0x102#16) := by decide
/-- I13, the draw of the vector given: rand = 0xA7. -/
theorem test_rnd_masks : (rndWith 0xA7#8 5 0x0F#8 base).readV 5 = 0x07#8 := by decide
/-- The step takes the model's own draw, whatever it is (log 1). -/
theorem test_rnd_draw : after base 0xC5FF (fun t => (t.readV 5, t.draws)) =
    some (Config.randomByte 0 &&& 0xFF#8, 1) := rfl
/-- A1. -/
theorem test_ldReg : after (withV [(10, 0x01#8), (11, 0x99#8)]) 0x8AB0 (pcAnd 10 11) =
    some (0x102#16, 0x99#8, 0x99#8) := by decide
/-- A4: OR keeps VF. -/
theorem test_orReg : after (withV [(10, 0x0F#8), (11, 0x0F#8), (15, 0x05#8)]) 0x8AB1 (pcAnd 10 15) =
    some (0x102#16, 0x0F#8, 0x05#8) := by decide
/-- A5. -/
theorem test_andReg : after (withV [(10, 0xF0#8), (11, 0x3C#8)]) 0x8AB2 (pcAnd 10 15) =
    some (0x102#16, 0x30#8, 0x00#8) := by decide
/-- A6. -/
theorem test_xorReg : after (withV [(10, 0xF0#8), (11, 0x3C#8)]) 0x8AB3 (pcAnd 10 15) =
    some (0x102#16, 0xCC#8, 0x00#8) := by decide
/-- A13: y = 15 is read before VF is written. -/
theorem test_addReg_reads_vf : after (withV [(15, 0x01#8), (10, 0xFF#8)]) 0x8AF4 (pcAnd 10 15) =
    some (0x102#16, 0x00#8, 0x01#8) := by decide
/-- A12: x = 15, the flag is last. -/
theorem test_addReg_vf : after (withV [(15, 0x10#8), (10, 0x20#8)]) 0x8FA4 (pcAnd 15 10) =
    some (0x102#16, 0x00#8, 0x20#8) := by decide
/-- A16. -/
theorem test_subReg_borrow : after (withV [(10, 0x00#8), (11, 0x01#8)]) 0x8AB5 (pcAnd 10 15) =
    some (0x102#16, 0xFF#8, 0x00#8) := by decide
/-- A15. -/
theorem test_subReg_equal : after (withV [(10, 0x05#8), (11, 0x05#8)]) 0x8AB5 (pcAnd 10 15) =
    some (0x102#16, 0x00#8, 0x01#8) := by decide
/-- A22: V[y] plays no part. -/
theorem test_shrReg : after (withV [(10, 0xFF#8), (11, 0x00#8)]) 0x8AB6 (pcAnd 10 15) =
    some (0x102#16, 0x7F#8, 0x01#8) := by decide
/-- A23. -/
theorem test_shrReg_vf : after (withV [(15, 0x02#8)]) 0x8F06 (pcAnd 15 15) =
    some (0x102#16, 0x00#8, 0x00#8) := by decide
/-- A27. -/
theorem test_subnReg : after (withV [(10, 0x10#8), (11, 0xFF#8)]) 0x8AB7 (pcAnd 10 15) =
    some (0x102#16, 0xEF#8, 0x01#8) := by decide
/-- A26. -/
theorem test_subnReg_borrow : after (withV [(10, 0x01#8), (11, 0x00#8)]) 0x8AB7 (pcAnd 10 15) =
    some (0x102#16, 0xFF#8, 0x00#8) := by decide
/-- A30. -/
theorem test_shlReg : after (withV [(10, 0xFF#8)]) 0x8A0E (pcAnd 10 15) =
    some (0x102#16, 0xFE#8, 0x01#8) := by decide
/-- A33: V[y] plays no part. -/
theorem test_shlReg_ignores_y : after (withV [(10, 0x01#8), (11, 0xFF#8)]) 0x8ABE (pcAnd 10 15) =
    some (0x102#16, 0x02#8, 0x00#8) := by decide

/-- X2. -/
theorem test_decode_fault : after base 0x00E0 (fun t => (t.status, t.pc)) =
    some (.fault .decodeError 0x100#16 (some 0x00E0#16), 0x100#16) := by decide
/-- F1: out of range wins over odd. -/
theorem test_fetch_range : after { base with pc := 0xFFF#16 } 0x0000 (·.status) =
    some (.fault .fetchOutOfRange 0xFFF#16 none) := by decide
/-- F2. -/
theorem test_fetch_odd : after { base with pc := 0x101#16 } 0x0000 (·.status) =
    some (.fault .fetchMisaligned 0x101#16 none) := by decide
/-- P7, first row: with no ROM the first step raises DECODE_ERROR. -/
theorem test_no_rom : (match step State.reset with | .next t => some t.status | _ => none) =
    some (.fault .decodeError 0x000#16 (some 0x0000#16)) := by decide

/-! ### Witnesses: states and operands that meet the hypotheses of each statement -/

/-- A canonical state with one free slot left (48 slots less one). -/
def oneFree : State := { base with sp := 0xEFC#16 }

theorem witness_RomLoader_fits : base.mem.wf = true ∧ 4095 + [0x12#8].length ≤ 4096 := by decide
theorem witness_RomLoader_does_not_fit : base.mem.wf = true ∧ 4096 < 4096 + [0x12#8].length := by decide

/-- An invariant state at the last slot, and a step of it. -/
theorem witness_StepKeepsInv : ∃ s t : State, s.Inv ∧ step s = .next t :=
  ⟨oneFree, _, ⟨rfl, ⟨47, by decide, rfl⟩, by decide, trivial⟩, rfl⟩

theorem witness_ReachedStatesMeetInv : ∃ s : State, s.ReachedIn 1 :=
  ⟨_, _, ⟨0, [0x12#8, 0x34#8], rfl⟩, rfl⟩

theorem witness_RunStopsOnlyAfterFault : base.status = .run := rfl

theorem witness_EncodeOfDecode : decode 0xCFFF#16 = .ok (.rnd 15 0xFF) := by decide

theorem witness_PlacedInstructionRuns : let s := { base with pc := 0xFFE#16 }
    s.status = .run ∧ s.mem.wf = true ∧ s.pc ≤ 0xFFE#16 ∧ s.pc[0] = false := by decide

/-- F5's state: JP 0x234 in the last word of memory. -/
def lastWord : State := { base with pc := 0xFFE#16, mem := [(0xFFE, 0x12#8), (0xFFF, 0x34#8)] }

theorem witness_StepRunsDecodedInstruction : lastWord.status = .run ∧ lastWord.pc.toNat ≤ 0xFFE ∧
    lastWord.pc.toNat % 2 = 0 ∧ decodeBytes (lastWord.readByte lastWord.pc.toNat)
      (lastWord.readByte (lastWord.pc.toNat + 1)) = .ok (.jp 0x234) := by decide

theorem witness_StepTakesFetchFault_range : let s := { base with pc := 0xFFF#16 }
    s.status = .run ∧ 0xFFE < s.pc.toNat := by decide
theorem witness_StepTakesFetchFault_odd : let s := { base with pc := 0xFFD#16 }
    s.status = .run ∧ s.pc.toNat ≤ 0xFFE ∧ s.pc.toNat % 2 = 1 := by decide

theorem witness_StepTakesDecodeFault : let s := { base with pc := 0xFFE#16 }
    s.status = .run ∧ s.pc.toNat ≤ 0xFFE ∧ s.pc.toNat % 2 = 0 ∧
    decodeBytes (s.readByte s.pc.toNat) (s.readByte (s.pc.toNat + 1)) =
      .error (.leadingNibble 0x0000#16) := by decide

theorem witness_FaultStateHasNoStep :
    (base.takeFault .decodeError none).status = .fault .decodeError 0x100#16 none := by decide

theorem witness_FaultCommitsNothing : ∃ t, step base = .next t ∧ t.status ≠ .run := ⟨_, rfl, by decide⟩

/-- A fault of the fetch records no opcode. -/
theorem witness_FaultRecordsFetchedOpcode_none : ∃ s t : State,
    step s = .next t ∧ t.status = .fault .fetchMisaligned 0xFFD#16 none :=
  ⟨{ base with pc := 0xFFD#16 }, _, rfl, rfl⟩
/-- A fault of a handler records its word. -/
theorem witness_FaultRecordsFetchedOpcode_some : ∃ s t : State,
    step s = .next t ∧ t.status = .fault .stackUnderflow 0xFFE#16 (some 0x00EE#16) :=
  ⟨{ base with pc := 0xFFE#16, mem := [(0xFFF, 0xEE#8)] }, _, rfl, rfl⟩

theorem witness_FaultsByInstruction_overflow : ∃ t,
    exec (.call 0x200) { base with sp := 0xEFE#16 } = .next t ∧
      t.status = .fault .stackOverflow 0x100#16 (some 0x2200#16) := ⟨_, rfl, by decide⟩
theorem witness_FaultsByInstruction_underflow : ∃ t,
    exec .ret { base with sp := 0xE9F#16 } = .next t ∧
      t.status = .fault .stackUnderflow 0x100#16 (some 0x00EE#16) := ⟨_, rfl, by decide⟩
theorem witness_FaultsByInstruction_outside : ∃ t,
    exec .ret { base with sp := 0xFFF#16 } = .next t ∧
      t.status = .fault .memOutOfRange 0x100#16 (some 0x00EE#16) := ⟨_, rfl, by decide⟩

theorem witness_JpSetsPc_self : base.pc.toNat = (0x100#12 : Addr12).toNat := by decide
theorem witness_JpSetsPc_odd : base.status = .run ∧ (0xFFD#12 : Addr12).toNat % 2 = 1 ∧
    (0xFFD#12 : Addr12) ≠ 0xFFF#12 := by decide
theorem witness_JpSetsPc_top : base.status = .run ∧ (0xFFF#12 : Addr12) = 0xFFF#12 := by decide

theorem witness_CallPushesAndJumps_free : oneFree.mem.wf = true ∧ oneFree.sp < 0xEFE#16 := by decide
theorem witness_CallPushesAndJumps_full : let s := { base with sp := 0xEFE#16 }
    0xEFE#16 ≤ s.sp := by decide

theorem witness_RetPopsIntoPc_lowest : let s := { base with sp := 0xEA0#16 }
    0xEA0#16 ≤ s.sp ∧ s.sp ≤ 0xFFE#16 := by decide
theorem witness_RetPopsIntoPc_highest : let s := { base with sp := 0xFFE#16 }
    0xEA0#16 ≤ s.sp ∧ s.sp ≤ 0xFFE#16 := by decide
theorem witness_RetPopsIntoPc_empty : let s := { base with sp := 0xE9F#16 }
    s.sp < 0xEA0#16 := by decide
theorem witness_RetPopsIntoPc_outside : let s := { base with sp := 0xFFF#16 }
    0xFFE#16 < s.sp := by decide

theorem witness_JpV0AddsV0_outOfRange : base.status = .run ∧
    0xFFE < (0xFFF#12 : Addr12).toNat + (base.readV 0).toNat := by decide
theorem witness_JpV0AddsV0_odd : base.status = .run ∧
    (0xFFD#12 : Addr12).toNat + (base.readV 0).toNat ≤ 0xFFE ∧
    ((0xFFD#12 : Addr12).toNat + (base.readV 0).toNat) % 2 = 1 := by decide

theorem witness_SkipOnImmediate_equal : base.readV 15 = 0x00#8 := by decide
theorem witness_SkipOnImmediate_different : base.readV 15 ≠ 0xFF#8 := by decide
theorem witness_SkipOnImmediate_top : let s := { base with pc := 0xFFE#16 }
    s.status = .run ∧ s.pc = 0xFFE#16 := by decide

theorem witness_SkipOnRegisters_equal : base.readV 0 = base.readV 15 := by decide
theorem witness_SkipOnRegisters_different :
    (withV [(0, 0x01#8)]).readV 0 ≠ (withV [(0, 0x01#8)]).readV 15 := by decide
theorem witness_SkipOnRegisters_trailing : (0xF#4 : BitVec 4) ≠ 0x0#4 := by decide

theorem witness_RndMasksTheDraw_zero : (0x00#8 : Byte) = 0x00#8 := rfl

/-- The clauses of AddRegSetsCarry, SubRegSetsNotBorrow, ShrShiftsVx, SubnRegSetsNotBorrow and
ShlShiftsVx about V[x]. -/
theorem witness_flag_handlers_other_register : (14 : Reg) ≠ 15 := by decide

theorem witness_MemRead_byte : (0xFFF#16 : Word).toNat ≤ 0xFFF := by decide
theorem witness_MemRead_word : (0xFFE#16 : Word).toNat + 1 ≤ 0xFFF := by decide
theorem witness_MemWrite : lastWord.mem.wf = true ∧ (0xFFE#16 : Word).toNat + 1 ≤ 0xFFF := by decide
theorem witness_AccessOutside_byte : 0xFFF < (0x1000#16 : Word).toNat := by decide
theorem witness_AccessOutside_word : 0xFFF < (0xFFF#16 : Word).toNat + 1 := by decide

theorem witness_Push_highest : let s := { base with sp := 0xFFC#16 }
    s.mem.wf = true ∧ s.sp.toNat + 3 ≤ 0xFFF := by decide
theorem witness_Push_from_empty :
    base.mem.wf = true ∧ base.sp.toNat + 3 ≤ 0xFFF ∧ base.sp = 0xE9E#16 := by decide
theorem witness_Pop : let s := { base with sp := 0xFFE#16 }
    s.sp.toNat + 1 ≤ 0xFFF := by decide

theorem witness_CallThenRetReturns : oneFree.mem.wf = true ∧ legalSp oneFree.sp ∧ oneFree.sp ≠ 0xEFE#16 :=
  ⟨rfl, ⟨47, by decide, rfl⟩, by decide⟩
theorem witness_FetchSeesThePush : oneFree.mem.wf = true ∧ legalSp oneFree.sp ∧
    oneFree.sp ≠ 0xEFE#16 ∧ (0xEFE#12 : Addr12).toNat = oneFree.sp.toNat + 2 :=
  ⟨rfl, ⟨47, by decide, rfl⟩, by decide, by decide⟩

theorem witness_CanonicalMemoryIsUnique : ∃ m m' : Memory, m.wf = true ∧ m'.wf = true ∧
    ∀ a, a < 4096 → m.readByte a = m'.readByte a :=
  ⟨Memory.writeByte [(5, 0x01#8)] 5 0x00#8, [], rfl, rfl, fun _ _ => rfl⟩

theorem witness_OnlyCallStores : ∃ t, (∀ nnn, Instr.ret ≠ .call nnn) ∧ exec .ret base = .next t :=
  ⟨_, by simp, rfl⟩
theorem witness_CallStoresOnlyItsSlot : ∃ t,
    exec (.call 0x200) oneFree = .next t ∧ oneFree.pushAddr = 0xEFE#16 := ⟨_, rfl, rfl⟩
theorem witness_CallStoresOnlyItsSlot_full : ∃ t,
    exec (.call 0x200) { base with sp := 0xEFE#16 } = .next t ∧
      0xEFE#16 ≤ ({ base with sp := 0xEFE#16 } : State).sp := ⟨_, rfl, by decide⟩
theorem witness_OnlyDestinationsChange : ∃ t,
    exec (.addReg 14 15) base = .next t ∧ (13 : Reg) ∉ writesV (.addReg 14 15) := ⟨_, rfl, by decide⟩
theorem witness_SpecialStateFrame : ∃ t, exec (.rnd 15 0xFF) base = .next t ∧
    (∀ nnn, Instr.rnd 15 0xFF ≠ .ldI nnn) ∧ (∀ nnn, Instr.rnd 15 0xFF ≠ .call nnn) ∧
    Instr.rnd 15 0xFF ≠ .ret := ⟨_, rfl, by simp, by simp, by simp⟩
theorem witness_SpecialStateFrame_draws : ∃ t, exec (.ldI 0xFFF) base = .next t ∧
    ∀ x nn, Instr.ldI 0xFFF ≠ .rnd x nn := ⟨_, rfl, by simp⟩

theorem witness_FlagRegisterRule_flag : ∃ t, exec (.addReg 15 15) base = .next t := ⟨_, rfl⟩
theorem witness_FlagRegisterRule_other : ∃ t,
    exec (.ldImm 14 0xFF) base = .next t ∧ (15 : Reg) ∉ writesV (.ldImm 14 0xFF) := ⟨_, rfl, by decide⟩
theorem witness_FlagRegisterRule_unread : ∃ t, exec (.addReg 14 13) base = .next t ∧
    ∀ n, Operand.reg n ∈ (Instr.addReg 14 13).operands → n ≠ 15 :=
  ⟨_, rfl, by
    intro n h
    simp [Instr.operands] at h
    omega⟩
theorem witness_OnlySourcesMatter : ∃ t, exec (.shrReg 14 15) base = .next t ∧
    ∀ r ∈ readsV (.shrReg 14 15),
      ({ base with V := base.V.set 15 0xFF#8 } : State).readV r = base.readV r :=
  ⟨_, rfl, by decide⟩
theorem witness_AddressRegisterRule_frame : ∃ t, exec (.jp 0xFFF) base = .next t ∧
    ∀ nnn, Instr.jp 0xFFF ≠ .ldI nnn := ⟨_, rfl, by simp⟩
theorem witness_AddressRegisterRule_range : ∃ t, step { base with I := 0xFFF#16 } = .next t ∧
    ({ base with I := 0xFFF#16 } : State).I.toNat ≤ 0xFFF := ⟨_, rfl, by decide⟩

/-- A skip in the last word of memory: pc becomes 0x1002. -/
def lastSkip : State := { base with pc := 0xFFE#16, mem := [(0xFFE, 0x30#8)] }

theorem witness_PcNeverWraps : ∃ t,
    lastSkip.fetchInstr ≠ .ok .ret ∧ step lastSkip = .next t ∧ t.status = .run :=
  ⟨_, by
    rw [show lastSkip.fetchInstr = .ok (.seImm 0 0x00) from rfl]
    simp, rfl, rfl⟩
theorem witness_MemoryMattersOnlyToFetchAndRet : ∃ t, lastSkip.fetchInstr ≠ .ok .ret ∧
    ({ lastSkip with mem := [(0, 0x77#8), (0xFFE, 0x30#8)] } : State).fetch = lastSkip.fetch ∧
    step lastSkip = .next t :=
  ⟨_, by
    rw [show lastSkip.fetchInstr = .ok (.seImm 0 0x00) from rfl]
    simp, rfl, rfl⟩

/-- JP 0xFFE at 0xFFE. -/
theorem witness_IdleEndIsFixed : ∃ s : State, s.IdleEnd :=
  ⟨{ base with pc := 0xFFE#16, mem := [(0xFFE, 0x1F#8), (0xFFF, 0xFE#8)] },
    rfl, by decide, by decide, rfl⟩

end Sys2Proof.Tests
end

section
/-! The address register `I` (10_state.md R17, 42_register_immediate.md R68). One commuting square,
`exec_setI`, says that a handler other than that of Annn neither reads nor writes `I`: replacing `I` before
it is replacing `I` after it. -/

namespace Sys2Proof.Machine

open Sys2Proof

variable {s t : State}

/-! ### The 12-bit address operand -/

@[simp] theorem addrOperand_toNat (nnn : Addr12) : (addrOperand nnn).toNat = nnn.toNat :=
  BitVec.toNat_setWidth_of_le (by decide)

theorem addrOperand_toNat_le (nnn : Addr12) : (addrOperand nnn).toNat ≤ 0xFFF := by
  have := nnn.isLt
  rw [addrOperand_toNat]
  omega

/-! ### Annn -/

theorem exec_ldI (nnn : Addr12) (s : State) :
    exec (.ldI nnn) s = .next (s.setI (addrOperand nnn)).advance := rfl

/-! ### Every other handler commutes with a change of `I` -/

theorem execCall_setI {nnn : Addr12} (h : execCall nnn s = .next t) (w : Word) :
    execCall nnn (s.setI w) = .next (t.setI w) := by
  cases hf : s.stackFull with
  | true =>
    rw [execCall_full nnn hf] at h
    cases h
    exact execCall_full (s := s.setI w) nnn hf
  | false =>
    rw [execCall_ok nnn hf] at h
    cases h
    exact execCall_ok (s := s.setI w) nnn hf

theorem execRet_setI (h : execRet s = .next t) (w : Word) :
    execRet (s.setI w) = .next (t.setI w) := by
  cases he : s.stackEmpty with
  | true =>
    rw [execRet_empty he] at h
    cases h
    exact execRet_empty (s := s.setI w) he
  | false =>
    by_cases hm : s.sp.toNat + 2 ≤ 4096
    · rw [execRet_ok he hm] at h
      cases h
      exact execRet_ok (s := s.setI w) he hm
    · rw [execRet_outside he hm] at h
      cases h
      exact execRet_outside (s := s.setI w) he hm

/-- The handlers without a stack access answer one record update of the state, in which `I` stands
untouched. -/
theorem exec_setI {i : Instr} (hi : ∀ nnn, i ≠ .ldI nnn) (h : exec i s = .next t) (w : Word) :
    exec i (s.setI w) = .next (t.setI w) := by
  cases i with
  | ldI nnn => exact absurd rfl (hi nnn)
  | call nnn => exact execCall_setI h w
  | ret => exact execRet_setI h w
  | _ =>
    cases h
    rfl

/-- The square of `exec_setI` at the `I` that `s` already holds. -/
theorem exec_keeps_I {i : Instr} (hi : ∀ nnn, i ≠ .ldI nnn) (h : exec i s = .next t) : t.I = s.I := by
  have hsame : Host.Outcome.next t = .next (t.setI s.I) := h.symm.trans (exec_setI hi h s.I)
  injection hsame with ht
  exact (congrArg State.I ht).trans (State.setI_i t s.I)

/-! ### `I` across a step -/

theorem exec_I_cases {i : Instr} (h : exec i s = .next t) :
    t.I = s.I ∨ ∃ nnn, i = .ldI nnn ∧ t.I = addrOperand nnn := by
  by_cases hi : ∃ nnn, i = .ldI nnn
  · obtain ⟨nnn, rfl⟩ := hi
    cases h
    exact .inr ⟨nnn, rfl, rfl⟩
  · exact .inl (exec_keeps_I (not_exists.1 hi) h)

theorem step_keeps_I_range (hs : s.I.toNat ≤ 0xFFF) (h : step s = .next t) : t.I.toNat ≤ 0xFFF := by
  obtain ⟨-, hstep⟩ | ⟨-, c, -, hstep⟩ | ⟨-, op, e, -, -, hstep⟩ | ⟨-, op, i, -, -, hstep⟩ := step_cases s
    <;> rw [hstep] at h
  · cases h
  · cases h
    exact hs
  · cases h
    exact hs
  · obtain hI | ⟨nnn, -, hI⟩ := exec_I_cases h
    · exact hI ▸ hs
    · exact hI ▸ addrOperand_toNat_le nnn

/-- What two runs that differ in `I` alone agree on, Annn included: it overwrites the difference. -/
theorem exec_ignores_I {i : Instr} (h : exec i s = .next t) (w : Word) :
    ∃ t', exec i (s.setI w) = .next t' ∧ t'.V = t.V ∧ t'.pc = t.pc ∧ t'.sp = t.sp ∧ t'.mem = t.mem ∧
      t'.status = t.status := by
  by_cases hi : ∃ nnn, i = .ldI nnn
  · obtain ⟨nnn, rfl⟩ := hi
    cases h
    exact ⟨_, exec_ldI nnn (s.setI w), rfl, rfl, rfl, rfl, rfl⟩
  · exact ⟨_, exec_setI (not_exists.1 hi) h w, rfl, rfl, rfl, rfl, rfl⟩

/-- Settles O54: the effect of Annn is its equation `exec_ldI`; the other clauses are the commuting square
`exec_setI` and what follows from it. -/
theorem addressRegisterRule : Obligations.AddressRegisterRule := by
  refine ⟨fun nnn s => ⟨Laws.RoundTrip.ldI nnn, _, exec_ldI nnn s, ?_⟩,
    fun i s t hi h => exec_keeps_I hi h, fun s t => step_keeps_I_range,
    fun i s t w h => exec_ignores_I h w⟩
  have hrange := addrOperand_toNat_le nnn
  exact ⟨addrOperand_toNat nnn, hrange, rfl, fun _ => rfl, rfl, fun _ => rfl, rfl⟩

end Sys2Proof.Machine
end

section
/-! Memory access and the two stack helpers inside memory (20_memory.md R30, R31, R35, R36). -/

namespace Sys2Proof.Machine

open Sys2Proof

variable {s : State}

/-! ### Reads -/

/-- Big-endian order as a number (R30): the byte at the lower address counts 256. -/
theorem wordOfBytes_toNat (hi lo : Byte) :
    (wordOfBytes hi lo).toNat = hi.toNat * 256 + lo.toNat := by
  rw [wordOfBytes, BitVec.toNat_append, ← Nat.shiftLeft_add_eq_or_of_lt lo.isLt, Nat.shiftLeft_eq]

theorem State.memRead8_ok {a : Word} (h : a.toNat + 1 ≤ 4096) :
    s.memRead8 a = .ok (s.readByte a.toNat) := by
  simp [State.memRead8, (inMemory_iff a 1).2 h]

/-- Settles O40: the two reads by their equations inside memory, the word's value by
`wordOfBytes_toNat`. -/
theorem memReadIsBigEndian : Obligations.MemReadIsBigEndian := by
  intro s addr
  refine ⟨fun h => State.memRead8_ok (by omega), fun h => ?_⟩
  exact ⟨_, State.memRead16_ok (by omega), rfl, wordOfBytes_toNat _ _⟩

/-! ### The two bytes of a store -/

theorem State.readByte_storeWord_high (h : s.mem.wf = true) (a : Nat) (v : Word) :
    (s.storeWord a v).readByte a = highByte v := by
  rw [State.readByte_storeWord (Memory.wf_rising h), if_pos rfl]

theorem State.readByte_storeWord_low (h : s.mem.wf = true) (a : Nat) (v : Word) :
    (s.storeWord a v).readByte (a + 1) = lowByte v := by
  rw [State.readByte_storeWord (Memory.wf_rising h), if_neg (Nat.succ_ne_self a), if_pos rfl]

/-! ### Push -/

/-- The push address does not wrap while its slot lies inside memory, on a full stack too. -/
theorem State.pushAddr_toNat_of_slot_inside (h : s.sp.toNat + 3 ≤ 0xFFF) :
    s.pushAddr.toNat = s.sp.toNat + 2 := by
  simp only [State.pushAddr, Config.slotBytes, BitVec.toNat_add, BitVec.toNat_ofNat]
  omega

/-- Settles O43: the push is a store at the advanced `sp`, whose two bytes and frame the
`readByte_storeWord` lemmas give; from empty the advanced `sp` is 0xEA0. -/
theorem pushAdvancesThenStores : Obligations.PushAdvancesThenStores := by
  intro s v hwf hslot
  have haddr := State.pushAddr_toNat_of_slot_inside hslot
  have hhigh := State.readByte_storeWord_high (s := s.setSp s.pushAddr) hwf s.pushAddr.toNat v
  have hlow := State.readByte_storeWord_low (s := s.setSp s.pushAddr) hwf s.pushAddr.toNat v
  refine ⟨_, State.push16_ok (by omega), haddr, hhigh, hlow,
    fun a => State.readByte_storeWord_ne _ v, rfl, rfl, rfl, rfl, fun hempty => ?_⟩
  have hslot0 : s.pushAddr.toNat = 0xEA0 := by rw [haddr, hempty]; rfl
  rw [hslot0] at hhigh hlow ⊢
  exact ⟨hhigh, hlow⟩

/-! ### Pop -/

/-- Settles O44: the equation of a pop whose slot is inside memory. -/
theorem popReadsThenRetreats : Obligations.PopReadsThenRetreats := by
  intro s hslot
  exact ⟨_, State.pop16_ok (by omega), rfl, rfl, rfl, rfl, rfl, rfl⟩

end Sys2Proof.Machine
end

section
/-! The fields of an opcode as numbers (30_encoding.md R45) and the second-level table of family 8
(R49). -/

namespace Sys2Proof

/-! ### The fields by their bits: each is a quotient and a remainder of the opcode -/

theorem leadOf_toNat (op : Word) : (leadOf op).toNat = op.toNat / 4096 := by
  have := op.isLt
  rw [leadOf, BitVec.extractLsb'_toNat, Nat.shiftRight_eq_div_pow]
  omega

theorem xOf_val (op : Word) : (xOf op).val = op.toNat / 256 % 16 := by
  rw [xOf, BitVec.val_toFin, BitVec.extractLsb'_toNat, Nat.shiftRight_eq_div_pow]

theorem yOf_val (op : Word) : (yOf op).val = op.toNat / 16 % 16 := by
  rw [yOf, BitVec.val_toFin, BitVec.extractLsb'_toNat, Nat.shiftRight_eq_div_pow]

theorem n4Of_toNat (op : Word) : (n4Of op).toNat = op.toNat % 16 := by
  rw [n4Of, BitVec.extractLsb'_toNat, Nat.shiftRight_zero]

theorem nnOf_toNat (op : Word) : (nnOf op).toNat = op.toNat % 256 := by
  rw [nnOf, BitVec.extractLsb'_toNat, Nat.shiftRight_zero]

theorem nnnOf_toNat (op : Word) : (nnnOf op).toNat = op.toNat % 4096 := by
  rw [nnnOf, BitVec.extractLsb'_toNat, Nat.shiftRight_zero]

theorem nnnOf_eq_append (op : Word) : nnnOf op = op.extractLsb' 8 4 ++ op.extractLsb' 0 8 :=
  (BitVec.extractLsb'_append_extractLsb'_eq_extractLsb' rfl : _ = op.extractLsb' 0 (4 + 8)).symm

/-! ### The fields by the two bytes: the same quotients and remainders of `hi * 256 + lo` -/

section
variable (hi lo : Byte)

theorem leadOf_wordOfBytes : (leadOf (wordOfBytes hi lo)).toNat = hi.toNat / 16 := by
  have := lo.isLt
  rw [leadOf_toNat, Machine.wordOfBytes_toNat]
  omega

theorem xOf_wordOfBytes : (xOf (wordOfBytes hi lo)).val = hi.toNat % 16 := by
  have := lo.isLt
  rw [xOf_val, Machine.wordOfBytes_toNat]
  omega

theorem yOf_wordOfBytes : (yOf (wordOfBytes hi lo)).val = lo.toNat / 16 := by
  have := lo.isLt
  rw [yOf_val, Machine.wordOfBytes_toNat]
  omega

theorem n4Of_wordOfBytes : (n4Of (wordOfBytes hi lo)).toNat = lo.toNat % 16 := by
  rw [n4Of_toNat, Machine.wordOfBytes_toNat]
  omega

theorem nnOf_wordOfBytes : nnOf (wordOfBytes hi lo) = lo := by
  have := lo.isLt
  apply BitVec.eq_of_toNat_eq
  rw [nnOf_toNat, Machine.wordOfBytes_toNat]
  omega

end

/-- Settles O7: the six fields by their bits, then by the opcode's two bytes. -/
theorem opcodeFields : Obligations.OpcodeFields :=
  ⟨fun op => ⟨leadOf_toNat op, xOf_val op, yOf_val op, n4Of_toNat op, nnOf_toNat op, nnnOf_toNat op,
      nnnOf_eq_append op⟩,
    fun hi lo => ⟨leadOf_wordOfBytes hi lo, xOf_wordOfBytes hi lo, yOf_wordOfBytes hi lo,
      n4Of_wordOfBytes hi lo, nnOf_wordOfBytes hi lo⟩⟩

/-! ### Family 8 -/

/-- Leading nibble 8 sends the decoder to the second-level table (R48). -/
theorem decode_packXy_eight (x y : Reg) (n : BitVec 4) :
    decode (packXy 0x8#4 x y n) = lookupAlu (packXy 0x8#4 x y n) := by
  have hlead := leadOf_packXy 0x8#4 x y n
  exact Laws.decode_of_leadOf (by rw [hlead]; decide) (by simp [lookup, hlead])

/-- The trailing nibbles without an entry in the second-level table (R49, R52). -/
theorem lookupAlu_unassigned {op : Word}
    (h : n4Of op ∈ [0x8#4, 0x9#4, 0xA#4, 0xB#4, 0xC#4, 0xD#4, 0xF#4]) :
    lookupAlu op = .error (.trailingNibble op) := by
  simp only [List.mem_cons, List.not_mem_nil, or_false] at h
  obtain h | h | h | h | h | h | h := h <;> simp [lookupAlu, h]

/-- Settles O12: an assigned nibble's word is the encoding of its instruction, so its row is the round
trip of that instruction; the other nibbles have no entry in the second-level table. -/
theorem familyEightTable : Obligations.FamilyEightTable := by
  intro x y
  refine ⟨Laws.RoundTrip.ldReg x y, Laws.RoundTrip.orReg x y, Laws.RoundTrip.andReg x y,
    Laws.RoundTrip.xorReg x y, Laws.RoundTrip.addReg x y, Laws.RoundTrip.subReg x y,
    Laws.RoundTrip.shrReg x y, Laws.RoundTrip.subnReg x y, Laws.RoundTrip.shlReg x y, fun n hn => ?_⟩
  have hn4 := n4Of_packXy 0x8#4 x y n
  exact (decode_packXy_eight x y n).trans (lookupAlu_unassigned (hn4.symm ▸ hn))

end Sys2Proof
end

section
/-! The register-immediate handlers of 6xnn and 7xnn (42_register_immediate.md R66, R67). Both write one
register and advance: the two lemmas on `(s.writeV x b).advance` say what such a handler does. -/

namespace Sys2Proof.Machine

open Sys2Proof

variable (s : State)

/-! ### A handler that writes one register and advances -/

theorem State.readV_writeV_advance_same (x : Reg) (b : Byte) : ((s.writeV x b).advance).readV x = b := by
  rw [State.readV_advance, State.readV_writeV, if_pos rfl]

theorem State.keepsBut_writeV_advance (x : Reg) (b : Byte) : s.KeepsBut [x] (s.writeV x b).advance where
  regs r hr := by
    have hne : r ≠ x := List.ne_of_not_mem_cons hr
    rw [State.readV_advance, State.readV_writeV, if_neg hne]
  i := rfl
  sp := rfl
  mem _ := rfl
  status := rfl

/-! ### 6xnn and 7xnn -/

theorem exec_ldImm (x : Reg) (nn : Byte) : exec (.ldImm x nn) s = .next (s.writeV x nn).advance := rfl

theorem exec_addImm (x : Reg) (nn : Byte) :
    exec (.addImm x nn) s = .next (s.writeV x (s.readV x + nn)).advance := rfl

/-- Settles O30: the write of `nn` read back, and the frame of one write. -/
theorem ldImmSetsRegister : Obligations.LdImmSetsRegister := by
  intro x nn s
  exact ⟨Laws.RoundTrip.ldImm x nn, _, exec_ldImm s x nn, s.readV_writeV_advance_same x nn, rfl,
    s.keepsBut_writeV_advance x nn⟩

/-- Settles O31: the byte written is the 8-bit sum, which wraps by `BitVec.toNat_add`; the frame of one
write keeps VF unless x = 15. -/
theorem addImmWrapsWithoutFlag : Obligations.AddImmWrapsWithoutFlag := by
  intro x nn s
  refine ⟨Laws.RoundTrip.addImm x nn, _, exec_addImm s x nn, ?_, rfl, s.keepsBut_writeV_advance x _⟩
  rw [State.readV_writeV_advance_same]
  exact BitVec.toNat_add _ _

end Sys2Proof.Machine
end

section
/-! The 8xyn handlers that set no flag, LD, OR, AND and XOR (43_alu.md R70 to R73). Each writes one
register and advances, so what it does and keeps is that of `(s.writeV x b).advance`. -/

namespace Sys2Proof.Machine

open Sys2Proof

variable (s : State) (x y : Reg)

theorem exec_ldReg : exec (.ldReg x y) s = .next (s.writeV x (s.readV y)).advance := rfl

theorem exec_orReg :
    exec (.orReg x y) s = .next (s.writeV x (s.readV x ||| s.readV y)).advance := rfl

theorem exec_andReg :
    exec (.andReg x y) s = .next (s.writeV x (s.readV x &&& s.readV y)).advance := rfl

theorem exec_xorReg :
    exec (.xorReg x y) s = .next (s.writeV x (s.readV x ^^^ s.readV y)).advance := rfl

/-- Settles O33: the write of `V[y]` read back, and the frame of one write. -/
theorem ldRegCopies : Obligations.LdRegCopies := by
  intro x y s
  exact ⟨Laws.RoundTrip.ldReg x y, _, exec_ldReg s x y, s.readV_writeV_advance_same x _, rfl,
    s.keepsBut_writeV_advance x _⟩

/-- Settles O34: the byte each handler writes read back, bit `k` of it by the operation's own bit lemma;
the frame of one write keeps VF unless x = 15. -/
theorem logicWritesNoFlag : Obligations.LogicWritesNoFlag := by
  intro x y s
  refine ⟨Laws.RoundTrip.orReg x y, Laws.RoundTrip.andReg x y, Laws.RoundTrip.xorReg x y, _, _, _,
    exec_orReg s x y, exec_andReg s x y, exec_xorReg s x y, fun k hk => ?_, rfl, rfl, rfl,
    s.keepsBut_writeV_advance x _, s.keepsBut_writeV_advance x _, s.keepsBut_writeV_advance x _⟩
  simp only [State.readV_writeV_advance_same]
  exact ⟨BitVec.getElem_or hk, BitVec.getElem_and hk, BitVec.getElem_xor hk⟩

end Sys2Proof.Machine
end

section
/-! What a handler can do, said once. `ExecEffect` tells the stack handlers' outcomes one by one
(40_control_transfer.md R58, R59) and, of every other handler, that it touches neither `sp` nor memory nor
the status. The frames, the faults and the invariant follow from it by cases. -/

namespace Sys2Proof.Machine

open Sys2Proof

variable {s t : State} {i : Instr}

/-! ### The stack tests as bounds on `sp` -/

theorem State.stackFull_iff : s.stackFull = true ↔ 0xEFE ≤ s.sp.toNat := by
  simp [State.stackFull, Config.spMax, BitVec.le_def]

theorem State.stackFull_eq_false_iff : s.stackFull = false ↔ s.sp.toNat < 0xEFE := by
  rw [← Bool.not_eq_true, State.stackFull_iff, Nat.not_le]

theorem State.stackEmpty_iff : s.stackEmpty = true ↔ s.sp.toNat < 0xEA0 := by
  simp [State.stackEmpty, Config.stackBase, BitVec.lt_def]

theorem State.stackEmpty_eq_false_iff : s.stackEmpty = false ↔ 0xEA0 ≤ s.sp.toNat := by
  rw [← Bool.not_eq_true, State.stackEmpty_iff, Nat.not_lt]

/-! ### The states CALL and RET leave -/

/-- What CALL leaves on a stack with a free slot (R58). -/
def State.afterCall (s : State) (nnn : Addr12) : State :=
  ((s.setSp s.pushAddr).storeWord s.pushAddr.toNat s.returnAddr).setPc (addrOperand nnn)

/-- What RET leaves when it pops a slot inside memory (R59). -/
def State.afterRet (s : State) : State :=
  (s.setSp (s.sp - 2#16)).setPc (wordOfBytes (s.readByte s.sp.toNat) (s.readByte (s.sp.toNat + 1)))

theorem exec_call_free (nnn : Addr12) (h : s.stackFull = false) :
    exec (.call nnn) s = .next (s.afterCall nnn) := execCall_ok nnn h

theorem exec_call_full (nnn : Addr12) (h : s.stackFull = true) :
    exec (.call nnn) s = .next (s.takeFault .stackOverflow (some (encode (.call nnn)))) :=
  execCall_full nnn h

theorem exec_ret_pop (h : s.stackEmpty = false) (hm : s.sp.toNat + 2 ≤ 4096) :
    exec .ret s = .next s.afterRet := execRet_ok h hm

theorem exec_ret_empty (h : s.stackEmpty = true) :
    exec .ret s = .next (s.takeFault .stackUnderflow (some (encode .ret))) := execRet_empty h

theorem exec_ret_outside (h : s.stackEmpty = false) (hm : ¬ s.sp.toNat + 2 ≤ 4096) :
    exec .ret s = .next (s.takeFault .memOutOfRange (some (encode .ret))) := execRet_outside h hm

/-! ### The jumps without a stack access (R57, R60) -/

theorem exec_jp (nnn : Addr12) (s : State) : exec (.jp nnn) s = .next (s.setPc (addrOperand nnn)) := rfl

theorem exec_jpV0 (nnn : Addr12) (s : State) : exec (.jpV0 nnn) s = .next (s.setPc (s.computedTarget nnn)) :=
  rfl

/-! ### Every outcome of a handler -/

/-- `ExecEffect i s t`: the handler of `i` may take `s` to `t`. -/
inductive ExecEffect : Instr → State → State → Prop where
  /-- A handler that does not use the stack. -/
  | plain {i : Instr} {s t : State} (not_call : ∀ nnn, i ≠ .call nnn) (not_ret : i ≠ .ret)
      (sp : t.sp = s.sp) (mem : t.mem = s.mem) (status : t.status = s.status) : ExecEffect i s t
  /-- CALL on a full stack. -/
  | overflow {nnn : Addr12} {s : State} (full : s.stackFull = true) :
      ExecEffect (.call nnn) s (s.takeFault .stackOverflow (some (encode (.call nnn))))
  /-- CALL with a free slot. -/
  | push {nnn : Addr12} {s : State} (free : s.stackFull = false) :
      ExecEffect (.call nnn) s (s.afterCall nnn)
  /-- RET on an empty stack. -/
  | underflow {s : State} (empty : s.stackEmpty = true) :
      ExecEffect .ret s (s.takeFault .stackUnderflow (some (encode .ret)))
  /-- RET from a slot inside memory. -/
  | pop {s : State} (nonempty : s.stackEmpty = false) (inside : s.sp.toNat + 2 ≤ 4096) :
      ExecEffect .ret s s.afterRet
  /-- RET where the slot leaves memory. -/
  | outside {s : State} (nonempty : s.stackEmpty = false) (leaves : ¬ s.sp.toNat + 2 ≤ 4096) :
      ExecEffect .ret s (s.takeFault .memOutOfRange (some (encode .ret)))

/-- A handler always answers a next state, and one that `ExecEffect` tells. -/
theorem exec_next_effect (i : Instr) (s : State) : ∃ t, exec i s = .next t ∧ ExecEffect i s t := by
  cases i with
  | call nnn =>
    cases hf : s.stackFull with
    | true => exact ⟨_, exec_call_full nnn hf, .overflow hf⟩
    | false => exact ⟨_, exec_call_free nnn hf, .push hf⟩
  | ret =>
    cases he : s.stackEmpty with
    | true => exact ⟨_, exec_ret_empty he, .underflow he⟩
    | false =>
      by_cases hm : s.sp.toNat + 2 ≤ 4096
      · exact ⟨_, exec_ret_pop he hm, .pop he hm⟩
      · exact ⟨_, exec_ret_outside he hm, .outside he hm⟩
  | _ => exact ⟨_, rfl, .plain nofun nofun rfl rfl rfl⟩

theorem exec_next (i : Instr) (s : State) : ∃ t, exec i s = .next t :=
  (exec_next_effect i s).imp fun _ => And.left

theorem exec_effect (h : exec i s = .next t) : ExecEffect i s t := by
  obtain ⟨u, hu, heffect⟩ := exec_next_effect i s
  cases hu.symm.trans h
  exact heffect

/-! ### Every outcome of a step -/

/-- Where a step has a next state, the status was RUN, and the step took a fault of the fetch, took that of
the decoder, or ran a handler. -/
theorem step_next_cases (h : step s = .next t) : s.status = .run ∧
    ((∃ c, s.fetch = .error c ∧ t = s.takeFault c none) ∨
      (∃ op e, s.fetch = .ok op ∧ decode op = .error e ∧ t = s.takeFault .decodeError (some op)) ∨
      ∃ op i, s.fetch = .ok op ∧ decode op = .ok i ∧ exec i s = .next t) := by
  obtain ⟨-, hstep⟩ | ⟨hrun, c, hf, hstep⟩ | ⟨hrun, op, e, hf, hd, hstep⟩ | ⟨hrun, op, i, hf, hd, hstep⟩ :=
    step_cases s <;> rw [hstep] at h
  · cases h
  · cases h
    exact ⟨hrun, .inl ⟨c, hf, rfl⟩⟩
  · cases h
    exact ⟨hrun, .inr (.inl ⟨op, e, hf, hd, rfl⟩)⟩
  · exact ⟨hrun, .inr (.inr ⟨op, i, hf, hd, h⟩)⟩

/-! ### Faults of a handler -/

/-- The stack condition under which a handler raises each cause (60_exceptions.md R84). -/
def State.RaisesOnStack (s : State) (i : Instr) (c : Cause) : Prop :=
  ((∃ nnn, i = .call nnn) ∧ c = .stackOverflow ∧ s.stackFull = true) ∨
  (i = .ret ∧ c = .stackUnderflow ∧ s.stackEmpty = true) ∨
  (i = .ret ∧ c = .memOutOfRange ∧ ¬ s.sp.toNat + 2 ≤ 4096)

/-- A handler that ends in FAULT has taken a fault on its stack condition, with its own word as the
opcode, and done nothing else (R88). -/
theorem exec_fault (hrun : s.status = .run) (h : exec i s = .next t) (hfault : t.status ≠ .run) :
    ∃ c, s.RaisesOnStack i c ∧ t = s.takeFault c (some (encode i)) := by
  cases exec_effect h with
  | plain _ _ _ _ hstatus => exact absurd (hstatus.trans hrun) hfault
  | overflow hfull => exact ⟨_, .inl ⟨⟨_, rfl⟩, rfl, hfull⟩, rfl⟩
  | push => exact absurd hrun hfault
  | underflow hempty => exact ⟨_, .inr (.inl ⟨rfl, rfl, hempty⟩), rfl⟩
  | pop => exact absurd hrun hfault
  | outside _ hm => exact ⟨_, .inr (.inr ⟨rfl, rfl, hm⟩), rfl⟩

end Sys2Proof.Machine
end

section
/-! Decoder and encoder are inverse (30_encoding.md R44 to R54): the round trip of every instruction, and that
a word which decodes is put together again from its fields. -/

namespace Sys2Proof

/-! ### Decode after encode -/

theorem decode_encode (i : Instr) : decode (encode i) = .ok i := by
  cases i with
  | ret => exact Laws.RoundTrip.ret
  | jp nnn => exact Laws.RoundTrip.jp nnn
  | call nnn => exact Laws.RoundTrip.call nnn
  | seImm x nn => exact Laws.RoundTrip.seImm x nn
  | sneImm x nn => exact Laws.RoundTrip.sneImm x nn
  | seReg x y => exact Laws.RoundTrip.seReg x y
  | ldImm x nn => exact Laws.RoundTrip.ldImm x nn
  | addImm x nn => exact Laws.RoundTrip.addImm x nn
  | ldReg x y => exact Laws.RoundTrip.ldReg x y
  | orReg x y => exact Laws.RoundTrip.orReg x y
  | andReg x y => exact Laws.RoundTrip.andReg x y
  | xorReg x y => exact Laws.RoundTrip.xorReg x y
  | addReg x y => exact Laws.RoundTrip.addReg x y
  | subReg x y => exact Laws.RoundTrip.subReg x y
  | shrReg x y => exact Laws.RoundTrip.shrReg x y
  | subnReg x y => exact Laws.RoundTrip.subnReg x y
  | shlReg x y => exact Laws.RoundTrip.shlReg x y
  | sneReg x y => exact Laws.RoundTrip.sneReg x y
  | ldI nnn => exact Laws.RoundTrip.ldI nnn
  | jpV0 nnn => exact Laws.RoundTrip.jpV0 nnn
  | rnd x nn => exact Laws.RoundTrip.rnd x nn

/-- Settles O8: the round trip of each instruction; through the two bytes by `wordOfBytes_bytes`. -/
theorem decodeOfEncode : Obligations.DecodeOfEncode := by
  intro i
  refine ⟨decode_encode i, ?_⟩
  rw [decodeBytes, Machine.wordOfBytes_bytes]
  exact decode_encode i

/-! ### A word is put together from its fields -/

theorem packNnn_toNat (l : BitVec 4) (n : Addr12) : (packNnn l n).toNat = l.toNat * 4096 + n.toNat := by
  rw [packNnn, BitVec.toNat_append, ← Nat.shiftLeft_add_eq_or_of_lt n.isLt, Nat.shiftLeft_eq]

theorem appendNibbles_toNat (a b : BitVec 4) : (a ++ b : Byte).toNat = a.toNat * 16 + b.toNat := by
  rw [BitVec.toNat_append, ← Nat.shiftLeft_add_eq_or_of_lt b.isLt, Nat.shiftLeft_eq]

theorem regBits_toNat (r : Reg) : (regBits r).toNat = r.val := rfl

theorem packXnn_toNat (l : BitVec 4) (x : Reg) (nn : Byte) :
    (packXnn l x nn).toNat = l.toNat * 4096 + x.val * 256 + nn.toNat := by
  have hbytes := Machine.wordOfBytes_toNat (l ++ regBits x) nn
  rw [appendNibbles_toNat, regBits_toNat] at hbytes
  exact hbytes.trans (by omega)

theorem packXy_toNat (l : BitVec 4) (x y : Reg) (n : BitVec 4) :
    (packXy l x y n).toNat = l.toNat * 4096 + x.val * 256 + y.val * 16 + n.toNat := by
  have hbytes := Machine.wordOfBytes_toNat (l ++ regBits x) (regBits y ++ n)
  rw [appendNibbles_toNat, appendNibbles_toNat, regBits_toNat, regBits_toNat] at hbytes
  exact hbytes.trans (by omega)

section
variable {op : Word} {l n : BitVec 4}

theorem packNnn_fields (hl : (leadOf op).toNat = l.toNat) : packNnn l (nnnOf op) = op := by
  apply BitVec.eq_of_toNat_eq
  rw [packNnn_toNat, ← hl, leadOf_toNat, nnnOf_toNat]
  omega

theorem packXnn_fields (hl : (leadOf op).toNat = l.toNat) : packXnn l (xOf op) (nnOf op) = op := by
  apply BitVec.eq_of_toNat_eq
  rw [packXnn_toNat, ← hl, leadOf_toNat, xOf_val, nnOf_toNat]
  omega

theorem packXy_fields (hl : (leadOf op).toNat = l.toNat) (hn : (n4Of op).toNat = n.toNat) :
    packXy l (xOf op) (yOf op) n = op := by
  apply BitVec.eq_of_toNat_eq
  rw [packXy_toNat, ← hl, ← hn, leadOf_toNat, xOf_val, yOf_val, n4Of_toNat]
  omega

/-! ### Encode after decode -/

variable {i : Instr}

theorem encode_of_lookupAlu (hl : (leadOf op).toNat = 8) (h : lookupAlu op = .ok i) : encode i = op := by
  unfold lookupAlu at h
  split at h <;> cases h
  all_goals exact packXy_fields hl ‹_›

theorem encode_of_lookup (h : lookup op = .ok i) : encode i = op := by
  unfold lookup at h
  split at h
  case h_8 hl => exact encode_of_lookupAlu hl h
  case h_5 hl | h_9 hl =>
    split at h
    · next hn =>
      cases h
      exact packXy_fields hl (congrArg BitVec.toNat hn)
    · cases h
  all_goals cases h
  case h_1 hl | h_2 hl | h_10 hl | h_11 hl => exact packNnn_fields hl
  case h_3 hl | h_4 hl | h_6 hl | h_7 hl | h_12 hl => exact packXnn_fields hl

theorem encode_of_decode (h : decode op = .ok i) : encode i = op := by
  unfold decode at h
  split at h
  · next hret =>
    cases h
    exact hret.symm
  · exact encode_of_lookup h

end

/-- Settles O9: the word is packed again from its fields, row by row of the two tables. -/
theorem encodeOfDecode : Obligations.EncodeOfDecode := fun _ _ => encode_of_decode

end Sys2Proof
end

section
/-! The invariant of the state across a step (10_state.md R17, R21; 60_exceptions.md R82, R83, R88): the
legal values of `sp`, the canonical form of memory and the fault record, for each thing a step can do. -/

namespace Sys2Proof.Machine

open Sys2Proof

variable {s t : State} {i : Instr}

/-! ### The legal values of `sp` (R21) -/

theorem legalSp_iff (w : Word) : legalSp w ↔ 0xE9E ≤ w.toNat ∧ w.toNat ≤ 0xEFE ∧ w.toNat % 2 = 0 := by
  simp only [legalSp, Config.stackDepth, Config.spInit, BitVec.toNat_ofNat]
  constructor
  · rintro ⟨k, hk, hw⟩
    omega
  · rintro ⟨hlo, hhi, heven⟩
    exact ⟨(w.toNat - 0xE9E) / 2, by omega, by omega⟩

theorem legalSp_push (h : legalSp s.sp) (hfree : s.stackFull = false) : legalSp s.pushAddr := by
  rw [legalSp_iff] at h ⊢
  rw [State.stackFull_eq_false_iff] at hfree
  rw [State.pushAddr_toNat_of_slot_inside (by omega)]
  omega

theorem sub_two_toNat {w : Word} (h : 2 ≤ w.toNat) : (w - 2#16).toNat = w.toNat - 2 :=
  BitVec.toNat_sub_of_le (x := w) (y := 2#16) (BitVec.le_def.2 h)

theorem legalSp_pop (h : legalSp s.sp) (hne : s.stackEmpty = false) : legalSp (s.sp - 2#16) := by
  rw [legalSp_iff] at h ⊢
  rw [State.stackEmpty_eq_false_iff] at hne
  rw [sub_two_toNat (by omega)]
  omega

theorem eq_spMax_of_full (h : legalSp s.sp) (hfull : s.stackFull = true) : s.sp = Config.spMax := by
  rw [legalSp_iff] at h
  rw [State.stackFull_iff] at hfull
  exact BitVec.eq_of_toNat_eq (show s.sp.toNat = 0xEFE by omega)

theorem eq_spInit_of_empty (h : legalSp s.sp) (hempty : s.stackEmpty = true) : s.sp = Config.spInit := by
  rw [legalSp_iff] at h
  rw [State.stackEmpty_iff] at hempty
  exact BitVec.eq_of_toNat_eq (show s.sp.toNat = 0xE9E by omega)

/-- The slot of a legal `sp` lies inside memory, so no pop of a run needs the backstop of R33. -/
theorem slot_inside_of_legalSp (h : legalSp s.sp) : s.sp.toNat + 2 ≤ 4096 := by
  rw [legalSp_iff] at h
  omega

/-! ### What a fetched word is (20_memory.md R38) -/

/-- A fetch that answers a word has read the two bytes at pc, and pc is even and at most 0xFFE. -/
theorem State.fetch_eq_ok {w : Word} (h : s.fetch = .ok w) :
    s.pc ≤ Config.pcMax ∧ s.pc[0] = false ∧ s.memRead16 s.pc = .ok w := by
  obtain ⟨-, hf⟩ | ⟨-, -, hf⟩ | ⟨hle, heven, -⟩ := s.fetch_cases
  · cases hf.symm.trans h
  · cases hf.symm.trans h
  · refine ⟨BitVec.not_lt.1 hle, heven, ?_⟩
    rw [← h]
    simp [State.fetch, hle, heven]

/-! ### The fault record of each fault a step can take -/

theorem recordSound_of_run (h : s.status = .run) : s.FaultRecordSound := by
  rw [State.FaultRecordSound, h]
  trivial

theorem recordSound_fetch {c : Cause} (h : s.fetch = .error c) : (s.takeFault c none).FaultRecordSound := by
  obtain ⟨hgt, hf⟩ | ⟨hle, hodd, hf⟩ | ⟨-, -, hf⟩ := s.fetch_cases
  · cases hf.symm.trans h
    exact ⟨rfl, rfl, hgt⟩
  · cases hf.symm.trans h
    exact ⟨rfl, rfl, BitVec.not_lt.1 hle, hodd⟩
  · cases hf.symm.trans h

theorem recordSound_decode {op : Word} {e : DecodeError} (hf : s.fetch = .ok op)
    (hd : decode op = .error e) : (s.takeFault .decodeError (some op)).FaultRecordSound :=
  ⟨rfl, op, e, rfl, (State.fetch_eq_ok hf).2.2, hd⟩

/-! ### The invariant -/

/-- Taking a fault touches no field of the invariant but the record. -/
theorem State.Inv.takeFault (h : s.Inv) {c : Cause} {op : Option Word}
    (hrecord : (s.takeFault c op).FaultRecordSound) : (s.takeFault c op).Inv :=
  ⟨h.mem_wf, h.sp_legal, h.i_range, hrecord⟩

theorem exec_keeps_inv (hs : s.Inv) (hrun : s.status = .run) (hI : t.I.toNat ≤ 0xFFF)
    (h : exec i s = .next t) : t.Inv := by
  cases exec_effect h with
  | plain _ _ hsp hmem hstatus =>
    exact ⟨hmem ▸ hs.mem_wf, hsp ▸ hs.sp_legal, hI, recordSound_of_run (hstatus.trans hrun)⟩
  | overflow hfull => exact hs.takeFault ⟨rfl, ⟨_, rfl⟩, eq_spMax_of_full hs.sp_legal hfull⟩
  | push hfree =>
    have hslot := (State.pushAddr_toNat hfree).2
    exact ⟨State.wf_storeWord (s := s.setSp _) _ hs.mem_wf hslot, legalSp_push hs.sp_legal hfree, hI,
      recordSound_of_run hrun⟩
  | underflow hempty => exact hs.takeFault ⟨rfl, rfl, eq_spInit_of_empty hs.sp_legal hempty⟩
  | pop hne _ => exact ⟨hs.mem_wf, legalSp_pop hs.sp_legal hne, hI, recordSound_of_run hrun⟩
  | outside _ hm => exact absurd (slot_inside_of_legalSp hs.sp_legal) hm

/-- Settles O4: a fault of the fetch or of the decoder changes the record alone, and a handler keeps the
invariant by `exec_keeps_inv`. -/
theorem stepKeepsInv : Obligations.StepKeepsInv := by
  intro s t hs h
  have hI := step_keeps_I_range hs.i_range h
  obtain ⟨hrun, ⟨c, hf, rfl⟩ | ⟨op, e, hf, hd, rfl⟩ | ⟨op, i, -, -, hexec⟩⟩ := step_next_cases h
  · exact hs.takeFault (recordSound_fetch hf)
  · exact hs.takeFault (recordSound_decode hf hd)
  · exact exec_keeps_inv hs hrun hI hexec

/-- Settles O3: memory lists nothing, `sp` is the empty stack's, and the status is RUN. -/
theorem freshInstanceMeetsInv : Obligations.FreshInstanceMeetsInv :=
  ⟨State.reset_mem_wf, (legalSp_iff _).2 (by decide), by decide, recordSound_of_run rfl⟩

end Sys2Proof.Machine
end

section
/-! Runs (70_reset_and_hazards.md): the ROM loader's effect on memory (R99), what every state of a run
keeps, and how a run ends (R105). -/

namespace Sys2Proof.Machine

open Sys2Proof

variable {s t : State}

/-! ### The loader's writes (R99) -/

theorem Memory.readByte_writeBytes_outside : ∀ (bytes : List Byte) {m : Memory} {a k : Nat},
    k < a ∨ a + bytes.length ≤ k → (m.writeBytes a bytes).readByte k = m.readByte k
  | [], _, _, _, _ => rfl
  | b :: rest, m, a, k, hk => by
    rw [List.length_cons] at hk
    have hne : k ≠ a := by omega
    exact (Memory.readByte_writeBytes_outside rest (by omega)).trans (Memory.readByte_writeByte_ne b hne)

/-- The first byte stays because the rest of the load lies above it. -/
theorem Memory.readByte_writeBytes_inside : ∀ (bytes : List Byte) {m : Memory} {a k : Nat},
    Memory.risingFrom 0 m = true → (hk : k < bytes.length) →
    (m.writeBytes a bytes).readByte (a + k) = bytes[k]
  | b :: rest, m, a, 0, hm, _ =>
    (Memory.readByte_writeBytes_outside rest (.inl (Nat.lt_succ_self a))).trans
      (Memory.readByte_writeByte_self a b hm)
  | b :: rest, m, a, k + 1, hm, hk => by
    have hm' := Memory.risingFrom_writeByte a b (Nat.zero_le a) hm
    have ih := Memory.readByte_writeBytes_inside rest (a := a + 1) hm' (Nat.lt_of_succ_lt_succ hk)
    rwa [Nat.add_right_comm] at ih

theorem loadRom_fits {offset : Nat} {bytes : List Byte} (h : offset + bytes.length ≤ 4096) :
    loadRom offset bytes s = .next { s with mem := s.mem.writeBytes offset bytes } := if_pos h

theorem loadRom_refused {offset : Nat} {bytes : List Byte} (h : 4096 < offset + bytes.length) :
    loadRom offset bytes s = .refused .romDoesNotFit := if_neg (Nat.not_le.2 h)

/-- Settles O2: a load that fits is one update of memory, read back inside and outside the bytes written. -/
theorem romLoaderWritesMemoryOnly : Obligations.RomLoaderWritesMemoryOnly := by
  intro offset bytes s hwf
  refine ⟨fun hfits => ⟨_, loadRom_fits hfits, fun k hk => ?_, fun a ha => ?_, rfl, rfl, rfl, rfl, rfl⟩,
    loadRom_refused⟩
  · exact Memory.readByte_writeBytes_inside bytes (Memory.wf_rising hwf) hk
  · exact Memory.readByte_writeBytes_outside bytes ha

/-- Settles O1: the values of `State.reset`, field by field. -/
theorem creationValues : Obligations.CreationValues :=
  ⟨State.reset_readV, rfl, rfl, rfl, fun _ => rfl, rfl⟩

/-! ### What every state of a run keeps -/

theorem runSteps_keeps {P : State → Prop} (hstep : ∀ s t, P s → step s = .next t → P t) :
    ∀ {n : Nat} {s t : State}, P s → runSteps n s = .next t → P t
  | 0, _, _, hs, h => by
    cases h
    exact hs
  | n + 1, s, t, hs, h => by
    rw [runSteps] at h
    split at h
    · next s' hs' => exact runSteps_keeps hstep (hstep s s' hs hs') h
    · cases h
    · cases h

/-- The loader changes memory alone and keeps its canonical form. -/
theorem creation_inv (h : s.Creation) : s.Inv := by
  obtain ⟨offset, bytes, hload⟩ := h
  obtain hfits | htoo := le_or_gt (offset + bytes.length) 4096
  · rw [loadRom_fits hfits] at hload
    cases hload
    obtain ⟨hmem, hsp, hI, hrecord⟩ := freshInstanceMeetsInv
    exact ⟨Memory.wf_writeBytes bytes hmem hfits, hsp, hI, recordSound_of_run rfl⟩
  · rw [loadRom_refused htoo] at hload
    cases hload

/-- Settles O5: the invariant holds at creation and every step keeps it. -/
theorem reachedStatesMeetInv : Obligations.ReachedStatesMeetInv := by
  rintro n s ⟨s₀, hcreation, hrun⟩
  exact runSteps_keeps stepKeepsInv (creation_inv hcreation) hrun

/-! ### How a run ends (R105, 60_exceptions.md R89) -/

/-- A RUN state takes a fault or runs a handler, and a handler always answers a next state. -/
theorem step_next_of_run (hrun : s.status = .run) : ∃ t, step s = .next t := by
  obtain ⟨hne, -⟩ | ⟨-, c, -, hstep⟩ | ⟨-, op, e, -, -, hstep⟩ | ⟨-, op, i, -, -, hstep⟩ := step_cases s
  · exact absurd hrun hne
  · exact ⟨_, hstep⟩
  · exact ⟨_, hstep⟩
  · rw [hstep]
    exact exec_next i s

theorem step_fault_of_not_run (h : s.status ≠ .run) : step s = .fault .noStepAfterFault := by
  obtain ⟨-, hstep⟩ | ⟨hrun, -⟩ | ⟨hrun, -⟩ | ⟨hrun, -⟩ := step_cases s
  · exact hstep
  all_goals exact absurd hrun h

/-- Settles O18: a FAULT status is not RUN. -/
theorem faultStateHasNoStep : Obligations.FaultStateHasNoStep := fun _ _ _ _ h =>
  step_fault_of_not_run (h ▸ nofun)

/-- Settles O19: by the status, RUN (`step_next_of_run`) or FAULT (`step_fault_of_not_run`). -/
theorem runStatesAlwaysStep : Obligations.RunStatesAlwaysStep := by
  intro s
  by_cases hrun : s.status = .run
  · obtain ⟨t, ht⟩ := step_next_of_run hrun
    exact ⟨⟨fun _ => hrun, fun _ => ⟨t, ht⟩⟩, fun r hr => by cases ht.symm.trans hr⟩
  · have hstop := step_fault_of_not_run hrun
    exact ⟨⟨fun ⟨t, ht⟩ => (by cases hstop.symm.trans ht), fun h => absurd h hrun⟩,
      fun r hr => by cases hstop.symm.trans hr⟩

/-- Settles O6: induction on the length of the run; its first step leads to a RUN state, from which the
rest runs, or to a FAULT state, which is the earlier state looked for. -/
theorem runStopsOnlyAfterFault : Obligations.RunStopsOnlyAfterFault := by
  intro n
  induction n with
  | zero => exact fun s _ => .inl ⟨s, rfl⟩
  | succ n ih =>
    intro s hrun
    obtain ⟨s', hs'⟩ := step_next_of_run hrun
    have hfirst : ∀ k, runSteps (k + 1) s = runSteps k s' := fun k => runSteps_succ hs'
    by_cases hrun' : s'.status = .run
    · obtain ⟨t, ht⟩ | ⟨hstop, m, t, hm, ht, hend⟩ := ih s' hrun'
      · exact .inl ⟨t, (hfirst n).trans ht⟩
      · exact .inr ⟨(hfirst n).trans hstop, m + 1, t, Nat.succ_lt_succ hm, (hfirst m).trans ht, hend⟩
    · cases n with
      | zero => exact .inl ⟨s', hfirst 0⟩
      | succ n =>
        have hstop := runSteps_succ_fault (n := n) (step_fault_of_not_run hrun')
        exact .inr ⟨(hfirst (n + 1)).trans hstop, 1, s', by omega, hfirst 0, hrun'⟩

/-! ### The idle end (R105.1, D18) -/

theorem setWidth_toNat_of_le_pcMax {pc : Word} (h : pc ≤ Config.pcMax) :
    (pc.setWidth 12).toNat = pc.toNat := by
  rw [BitVec.le_def, BitVec.toNat_ofNat] at h
  rw [BitVec.toNat_setWidth, Nat.mod_eq_of_lt (by omega)]

/-- The word at an idle end: JP to the low 12 bits of pc, which are all of it. -/
theorem jp_self_word {pc : Word} (h : pc ≤ Config.pcMax) :
    0x1000#16 ||| pc = encode (.jp (pc.setWidth 12)) := by
  have hlow := (pc.setWidth 12).isLt
  apply BitVec.eq_of_toNat_eq
  rw [encode, packNnn_toNat, BitVec.toNat_or, ← setWidth_toNat_of_le_pcMax h]
  exact (Nat.two_pow_add_eq_or_of_lt hlow 1).symm

theorem addrOperand_setWidth {pc : Word} (h : pc ≤ Config.pcMax) : addrOperand (pc.setWidth 12) = pc := by
  apply BitVec.eq_of_toNat_eq
  rw [addrOperand_toNat, setWidth_toNat_of_le_pcMax h]

theorem step_idleEnd (h : s.IdleEnd) : step s = .next s := by
  obtain ⟨hrun, heven, hle, hword⟩ := h
  have hfetch : s.fetch = .ok (0x1000#16 ||| s.pc) := by
    simp [State.fetch, BitVec.not_lt.2 hle, heven, hword]
  rw [jp_self_word hle] at hfetch
  have hjp : step s = .next (s.setPc (addrOperand (s.pc.setWidth 12))) :=
    (step_of_decode_ok hrun hfetch (decode_encode _)).trans (exec_jp _ s)
  rwa [addrOperand_setWidth hle] at hjp

/-- Settles O57: the idle end's step is a JP to its own address, so it is a fixed point of every run. -/
theorem idleEndIsFixed : Obligations.IdleEndIsFixed := by
  intro s h n
  induction n with
  | zero => rfl
  | succ n ih => exact (runSteps_succ (step_idleEnd h)).trans ih

end Sys2Proof.Machine
end

section
/-! The step (30_encoding.md R54) and the faults it takes (60_exceptions.md R80 to R88): its stages, decided
by pc and the two bytes there, and everything a step that raises has done. -/

namespace Sys2Proof.Machine

open Sys2Proof

variable {s t : State} {i : Instr}

/-! ### Range and alignment of pc as numbers (20_memory.md R38) -/

theorem pcMax_lt_iff (w : Word) : Config.pcMax < w ↔ 0xFFE < w.toNat := by
  rw [BitVec.lt_def, BitVec.toNat_ofNat]

theorem not_pcMax_lt_of_le {w : Word} (h : w.toNat ≤ 0xFFE) : ¬ Config.pcMax < w :=
  fun hgt => absurd ((pcMax_lt_iff w).1 hgt) (Nat.not_lt.2 h)

theorem bit_zero_eq_true_iff (w : Word) : w[0] = true ↔ w.toNat % 2 = 1 := by
  rw [BitVec.getElem_eq_testBit_toNat, Nat.testBit_zero, decide_eq_true_eq]

theorem bit_zero_eq_false_iff (w : Word) : w[0] = false ↔ w.toNat % 2 = 0 := by
  rw [← Bool.not_eq_true, bit_zero_eq_true_iff, Nat.mod_two_not_eq_one]

/-! ### The stages of a step -/

theorem State.fetch_window (hle : s.pc.toNat ≤ 0xFFE) (heven : s.pc.toNat % 2 = 0) :
    s.fetch = .ok (wordOfBytes (s.readByte s.pc.toNat) (s.readByte (s.pc.toNat + 1))) :=
  State.fetch_ok (not_pcMax_lt_of_le hle) ((bit_zero_eq_false_iff _).2 heven)

theorem step_outOfRange (hrun : s.status = .run) (h : 0xFFE < s.pc.toNat) :
    step s = .next (s.takeFault .fetchOutOfRange none) :=
  step_of_fetch_error hrun (State.fetch_outOfRange ((pcMax_lt_iff _).2 h))

theorem step_misaligned (hrun : s.status = .run) (hle : s.pc.toNat ≤ 0xFFE) (hodd : s.pc.toNat % 2 = 1) :
    step s = .next (s.takeFault .fetchMisaligned none) :=
  step_of_fetch_error hrun
    (State.fetch_misaligned (not_pcMax_lt_of_le hle) ((bit_zero_eq_true_iff _).2 hodd))

/-- Settles O15: the fetched word is the two bytes at pc. -/
theorem stepRunsDecodedInstruction : Obligations.StepRunsDecodedInstruction :=
  fun _ _ hrun hle heven hd => step_of_decode_ok hrun (State.fetch_window hle heven) hd

/-- Settles O16: range first, then alignment. -/
theorem stepTakesFetchFault : Obligations.StepTakesFetchFault :=
  fun _ hrun => ⟨step_outOfRange hrun, step_misaligned hrun⟩

/-- Settles O17: the word fetched is the word recorded. -/
theorem stepTakesDecodeFault : Obligations.StepTakesDecodeFault :=
  fun _ _ hrun hle heven hd => step_of_decode_error hrun (State.fetch_window hle heven) hd

/-! ### An instruction stored at pc -/

theorem withFetchWord_encode (i : Instr) (h : s.pc ≤ Config.pcMax) :
    s.withFetchWord 16 (encode i).toNat = s.storeWord s.pc.toNat (encode i) := by
  rw [State.withFetchWord, Nat.mod_eq_of_lt (encode i).isLt, BitVec.ofNat_toNat, BitVec.setWidth_eq,
    State.placeWord, if_neg (BitVec.not_lt.2 h)]

theorem decodeTableWord_encode (i : Instr) : decodeTableWord 16 (encode i).toNat = some i := by
  rw [decodeTableWord, if_pos le_rfl, Nat.mod_eq_of_lt (encode i).isLt, BitVec.ofNat_toNat,
    BitVec.setWidth_eq]
  exact congrArg Except.toOption (decodeOfEncode i).2

/-- Settles O14: the two bytes stored are the two bytes fetched, and their word is decoded back. -/
theorem placedInstructionRuns : Obligations.PlacedInstructionRuns := by
  intro i s hrun hwf hle heven
  refine ⟨?_, decodeTableWord_encode i⟩
  rw [withFetchWord_encode i hle]
  have hfetch : (s.storeWord s.pc.toNat (encode i)).fetch = .ok (encode i) := by
    rw [State.fetch_ok (s := s.storeWord _ _) (BitVec.not_lt.2 hle) heven, State.storeWord_pc,
      State.readByte_storeWord_high hwf, State.readByte_storeWord_low hwf, wordOfBytes_bytes]
  exact step_of_decode_ok hrun hfetch (decode_encode i)

/-! ### Everything a step that raises has done -/

/-- The fetch raises its own two causes and no other (R82). -/
theorem fetch_error_cause {c : Cause} (h : s.fetch = .error c) :
    c = .fetchOutOfRange ∨ c = .fetchMisaligned := by
  obtain ⟨-, hf⟩ | ⟨-, -, hf⟩ | ⟨-, -, hf⟩ := s.fetch_cases <;> cases hf.symm.trans h
  · exact .inl rfl
  · exact .inr rfl

theorem State.RaisesOnStack.not_fetch_cause {c : Cause} (h : s.RaisesOnStack i c) :
    ¬ (c = .fetchOutOfRange ∨ c = .fetchMisaligned) := by
  obtain ⟨-, rfl, -⟩ | ⟨-, rfl, -⟩ | ⟨-, rfl, -⟩ := h <;> decide

/-- A step that ends in FAULT has taken one fault: of the fetch, without an opcode, or else of the
decoder or a handler, with the word fetched. -/
theorem step_fault (h : step s = .next t) (hfault : t.status ≠ .run) :
    ∃ c op, t = s.takeFault c op ∧
      (op = none ∧ (c = .fetchOutOfRange ∨ c = .fetchMisaligned) ∨
        ∃ w, op = some w ∧ s.fetch = .ok w ∧ ¬ (c = .fetchOutOfRange ∨ c = .fetchMisaligned)) := by
  obtain ⟨hrun, ⟨c, hf, rfl⟩ | ⟨w, e, hf, -, rfl⟩ | ⟨w, i, hf, hd, hexec⟩⟩ := step_next_cases h
  · exact ⟨c, none, rfl, .inl ⟨rfl, fetch_error_cause hf⟩⟩
  · exact ⟨_, _, rfl, .inr ⟨w, rfl, hf, by decide⟩⟩
  · obtain ⟨c, hraises, rfl⟩ := exec_fault hrun hexec hfault
    rw [encode_of_decode hd]
    exact ⟨c, some w, rfl, .inr ⟨w, rfl, hf, hraises.not_fetch_cause⟩⟩

/-- Settles O20: what such a step has done is `State.takeFault`, an update of the status alone. -/
theorem faultCommitsNothing : Obligations.FaultCommitsNothing := by
  intro s t h hfault
  obtain ⟨c, op, rfl, -⟩ := step_fault h hfault
  exact ⟨rfl, rfl, rfl, rfl, rfl, rfl, c, op, rfl⟩

/-- Settles O21: no opcode with a fault of the fetch, and else the fetched word, which is the one read at
pc. -/
theorem faultRecordsFetchedOpcode : Obligations.FaultRecordsFetchedOpcode := by
  intro s t c p op h hstatus
  obtain ⟨c', op', rfl, horigin⟩ := step_fault h (hstatus ▸ nofun)
  cases hstatus
  obtain ⟨rfl, hc⟩ | ⟨w, rfl, hf, hc⟩ := horigin
  · exact ⟨⟨fun _ => hc, fun _ => rfl⟩, nofun⟩
  · refine ⟨⟨nofun, fun h => absurd h hc⟩, fun w' hw' => ?_⟩
    cases hw'
    exact (State.fetch_eq_ok hf).2.2

/-- Settles O22: the stack conditions of `exec_fault` as bounds on `sp`. -/
theorem faultsByInstruction : Obligations.FaultsByInstruction := by
  intro i s t c p op hrun h hstatus
  obtain ⟨c', hraises, rfl⟩ := exec_fault hrun h (hstatus ▸ nofun)
  cases hstatus
  obtain ⟨hi, hc, hfull⟩ | ⟨hi, hc, hempty⟩ | ⟨hi, hc, hm⟩ := hraises
  · exact .inl ⟨hi, hc, BitVec.le_def.2 (State.stackFull_iff.1 hfull)⟩
  · exact .inr (.inl ⟨hi, hc, BitVec.lt_def.2 (State.stackEmpty_iff.1 hempty)⟩)
  · exact .inr (.inr ⟨hi, hc, (pcMax_lt_iff _).2 (by omega)⟩)

/-- Settles O23: the six codes differ, and only DECODE_ERROR has its kind. -/
theorem causeCodesAndKinds : Obligations.CauseCodesAndKinds := by
  refine ⟨rfl, rfl, rfl, rfl, rfl, rfl, fun c d => ?_, fun c => ?_⟩
  · cases c <;> cases d <;> decide
  · cases c <;> decide

end Sys2Proof.Machine
end

section
/-! Which words decode, and the rows of the opcode table (30_encoding.md R47 to R52). -/

namespace Sys2Proof

variable {op : Word}

/-! ### The words without a handler -/

theorem lookupAlu_error_iff :
    (∃ e, lookupAlu op = .error e) ↔ op.toNat % 16 ∈ [8, 9, 10, 11, 12, 13, 15] := by
  have hlt := (n4Of op).isLt
  rw [lookupAlu, ← n4Of_toNat]
  generalize (n4Of op).toNat = n at hlt ⊢
  interval_cases n <;> simp

theorem n4Of_eq_zero_iff : n4Of op = 0#4 ↔ op.toNat % 16 = 0 := by
  rw [BitVec.toNat_eq, n4Of_toNat]
  rfl

/-- The family of a word decides, with its trailing nibble in families 5, 8 and 9. -/
theorem lookup_error_iff : (∃ e, lookup op = .error e) ↔
    op.toNat / 4096 = 0 ∨ (op.toNat / 4096 = 5 ∧ op.toNat % 16 ≠ 0) ∨
    (op.toNat / 4096 = 8 ∧ op.toNat % 16 ∈ [8, 9, 10, 11, 12, 13, 15]) ∨
    (op.toNat / 4096 = 9 ∧ op.toNat % 16 ≠ 0) ∨ 13 ≤ op.toNat / 4096 := by
  have hlt := (leadOf op).isLt
  rw [lookup, ← leadOf_toNat]
  generalize (leadOf op).toNat = l at hlt ⊢
  by_cases h8 : l = 8
  · subst h8
    simpa using lookupAlu_error_iff
  by_cases h59 : l = 5 ∨ l = 9
  · by_cases hn : op.toNat % 16 = 0 <;> obtain rfl | rfl := h59 <;> simp [n4Of_eq_zero_iff, hn]
  interval_cases l <;> simp_all

/-- Settles O10: 00EE decodes, and every other word has the answer of the tables. -/
theorem decodeErrorsExactly : Obligations.DecodeErrorsExactly := by
  intro op
  by_cases hret : op = 0x00EE#16
  · subst hret
    exact iff_of_false nofun (by decide)
  · rw [decode, if_neg hret, lookup_error_iff, and_iff_left hret]

/-- Settles O13: each word evaluates through the decoder. -/
theorem writtenWordsDecode : Obligations.WrittenWordsDecode :=
  ⟨rfl, rfl, rfl, rfl, rfl, rfl, rfl, rfl, rfl, rfl, rfl, rfl, rfl, rfl, rfl, rfl⟩

/-! ### The rows of the opcode table -/

theorem tableRow_of_instr (i : Instr) : Laws.TableRow.Statement i := by
  cases i with
  | ret => exact Laws.TableRow.ret
  | jp nnn => exact Laws.TableRow.jp nnn
  | call nnn => exact Laws.TableRow.call nnn
  | seImm x nn => exact Laws.TableRow.seImm x nn
  | sneImm x nn => exact Laws.TableRow.sneImm x nn
  | seReg x y => exact Laws.TableRow.seReg x y
  | ldImm x nn => exact Laws.TableRow.ldImm x nn
  | addImm x nn => exact Laws.TableRow.addImm x nn
  | ldReg x y => exact Laws.TableRow.ldReg x y
  | orReg x y => exact Laws.TableRow.orReg x y
  | andReg x y => exact Laws.TableRow.andReg x y
  | xorReg x y => exact Laws.TableRow.xorReg x y
  | addReg x y => exact Laws.TableRow.addReg x y
  | subReg x y => exact Laws.TableRow.subReg x y
  | shrReg x y => exact Laws.TableRow.shrReg x y
  | subnReg x y => exact Laws.TableRow.subnReg x y
  | shlReg x y => exact Laws.TableRow.shlReg x y
  | sneReg x y => exact Laws.TableRow.sneReg x y
  | ldI nnn => exact Laws.TableRow.ldI nnn
  | jpV0 nnn => exact Laws.TableRow.jpV0 nnn
  | rnd x nn => exact Laws.TableRow.rnd x nn

theorem OpcodeRow.claims_iff {r : OpcodeRow} : r.claims op = true ↔ op &&& r.mask = r.pattern := beq_iff_eq

/-- Two different rows ask for different bits where both masks look. -/
theorem opcodeTable_patterns_differ : ∀ r ∈ opcodeTable, ∀ r' ∈ opcodeTable,
    r.pattern &&& r'.mask = r'.pattern &&& r.mask → r = r' := by
  decide

theorem claimingRow_unique {r r' : OpcodeRow} (hr : r ∈ opcodeTable) (hr' : r' ∈ opcodeTable)
    (h : r.claims op = true) (h' : r'.claims op = true) : r = r' := by
  rw [OpcodeRow.claims_iff] at h h'
  apply opcodeTable_patterns_differ r hr r' hr'
  rw [← h, ← h', BitVec.and_assoc, BitVec.and_assoc, BitVec.and_comm r.mask]

theorem filter_claims_of_row {r : OpcodeRow} (hr : r ∈ opcodeTable) (h : r.claims op = true) :
    opcodeTable.filter (·.claims op) = [r] := by
  have hsame : ∀ r' ∈ opcodeTable, r'.claims op = (r' == r) := fun r' hr' => by
    rw [Bool.eq_iff_iff, beq_iff_eq]
    exact ⟨fun h' => claimingRow_unique hr' hr h' h, fun e => e ▸ h⟩
  have honce : opcodeTable.count r = 1 := List.count_eq_one_of_mem (by decide) hr
  rw [List.filter_congr hsame, List.filter_beq, honce, List.replicate_one]

/-! ### A claimed word decodes -/

/-- Every row fixes the leading nibble. -/
theorem lead_of_claims {r : OpcodeRow} (hr : r ∈ opcodeTable) (h : r.claims op = true) :
    op.toNat / 4096 = r.pattern.toNat / 4096 := by
  have hmask : leadOf r.mask = BitVec.allOnes 4 :=
    (by decide : ∀ r ∈ opcodeTable, leadOf r.mask = BitVec.allOnes 4) r hr
  have hand : leadOf (op &&& r.mask) = leadOf op &&& leadOf r.mask := BitVec.extractLsb'_and ..
  rw [OpcodeRow.claims_iff.1 h, hmask, BitVec.and_allOnes] at hand
  rw [← leadOf_toNat, ← leadOf_toNat, hand]

/-- The rows of families 5, 8 and 9 fix the trailing nibble too. -/
theorem trailing_of_claims {r : OpcodeRow} (hr : r ∈ trailingRows) (h : r.claims op = true) :
    op.toNat % 16 = r.pattern.toNat % 16 := by
  have hmask : n4Of r.mask = BitVec.allOnes 4 :=
    (by decide : ∀ r ∈ trailingRows, n4Of r.mask = BitVec.allOnes 4) r hr
  have hand : n4Of (op &&& r.mask) = n4Of op &&& n4Of r.mask := BitVec.extractLsb'_and ..
  rw [OpcodeRow.claims_iff.1 h, hmask, BitVec.and_allOnes] at hand
  rw [← n4Of_toNat, ← n4Of_toNat, hand]

theorem directRows_families : ∀ r ∈ directRows,
    (r.pattern = 0x00EE#16 ∧ r.mask = BitVec.allOnes 16) ∨
      r.pattern.toNat / 4096 ∈ [1, 2, 3, 4, 6, 7, 10, 11, 12] := by
  decide

theorem trailingRows_families : ∀ r ∈ trailingRows,
    ((r.pattern.toNat / 4096 = 5 ∨ r.pattern.toNat / 4096 = 9) ∧ r.pattern.toNat % 16 = 0) ∨
      (r.pattern.toNat / 4096 = 8 ∧ r.pattern.toNat % 16 ∈ [0, 1, 2, 3, 4, 5, 6, 7, 14]) := by
  decide

theorem not_decode_error_of_claims {r : OpcodeRow} {e : DecodeError} (hr : r ∈ opcodeTable)
    (h : r.claims op = true) : decode op ≠ .error e := by
  intro he
  have hbad := (decodeErrorsExactly op).1 ⟨e, he⟩
  have hlead := lead_of_claims hr h
  simp only [List.mem_cons, List.not_mem_nil, or_false] at hbad
  obtain hdirect | htrailing := List.mem_append.1 hr
  · obtain ⟨hpattern, hmask⟩ | hfamily := directRows_families r hdirect
    · have hret := OpcodeRow.claims_iff.1 h
      rw [hmask, hpattern, BitVec.and_allOnes] at hret
      cases hret ▸ he
    · simp only [List.mem_cons, List.not_mem_nil, or_false] at hfamily
      omega
  · have hn4 := trailing_of_claims htrailing h
    have hfamily := trailingRows_families r htrailing
    simp only [List.mem_cons, List.not_mem_nil, or_false] at hfamily
    omega

/-- Settles O11: the row of the decoded instruction claims the word and is the only one that does; a word
that any row claims decodes. -/
theorem decodeSelectsOneTableRow : Obligations.DecodeSelectsOneTableRow := by
  intro op
  cases hd : decode op with
  | ok i =>
    obtain ⟨r, hr, hform, hclaims⟩ := tableRow_of_instr i
    rw [encode_of_decode hd] at hclaims
    rw [filter_claims_of_row hr hclaims]
    exact congrArg (fun form => [form]) hform
  | error e =>
    exact List.filter_eq_nil_iff.2 fun r hr hclaims => not_decode_error_of_claims hr hclaims hd

end Sys2Proof
end

section
/-! Control transfer and the skips (40_control_transfer.md, 41_skip.md), with the two-byte store under them
(20_memory.md R32, R33). -/

namespace Sys2Proof.Machine

open Sys2Proof

variable {s t : State}

/-! ### Stores and accesses outside memory (R32, R33) -/

/-- Settles O41: the store's two bytes and its frame. -/
theorem memWriteIsBigEndian : Obligations.MemWriteIsBigEndian := by
  intro s addr v hwf hin
  exact ⟨_, State.memWrite16_ok (by omega), State.readByte_storeWord_high hwf _ v,
    State.readByte_storeWord_low hwf _ v, fun a => State.readByte_storeWord_ne s v, rfl, rfl, rfl, rfl, rfl⟩

theorem State.memRead8_error {a : Word} (h : ¬ a.toNat + 1 ≤ 4096) :
    s.memRead8 a = .error .memOutOfRange := by
  simp [State.memRead8, mt (inMemory_iff a 1).1 h]

/-- Settles O42: the backstop of each primitive. -/
theorem accessOutsideMemoryFaults : Obligations.AccessOutsideMemoryFaults :=
  fun _ _ _ => ⟨fun h => State.memRead8_error (by omega),
    fun h => ⟨State.memRead16_error (by omega), State.memWrite16_error (by omega)⟩⟩

/-! ### A handler that only sets pc -/

theorem State.keepsBut_setPc (s : State) (w : Word) : s.KeepsBut [] (s.setPc w) :=
  ⟨fun _ _ => rfl, rfl, rfl, fun _ => rfl, rfl⟩

theorem State.setPc_self {w : Word} (h : s.pc = w) : s.setPc w = s := h ▸ rfl

/-- The next step after a jump to an address the window of R38 refuses. -/
theorem step_setPc_outOfRange {w : Word} (hrun : s.status = .run) (h : 0xFFE < w.toNat) :
    step (s.setPc w) = .next ((s.setPc w).takeFault .fetchOutOfRange none) := step_outOfRange hrun h

theorem step_setPc_misaligned {w : Word} (hrun : s.status = .run) (hle : w.toNat ≤ 0xFFE)
    (hodd : w.toNat % 2 = 1) :
    step (s.setPc w) = .next ((s.setPc w).takeFault .fetchMisaligned none) := step_misaligned hrun hle hodd

/-- Settles O24: the jump is an update of pc; the next step's fetch refuses an odd target, or 0xFFF. -/
theorem jpSetsPc : Obligations.JpSetsPc := by
  intro nnn s
  have htarget := addrOperand_toNat nnn
  have hlt := nnn.isLt
  refine ⟨Laws.RoundTrip.jp nnn, _, exec_jp nnn s, htarget, s.keepsBut_setPc _,
    fun hself => State.setPc_self (BitVec.eq_of_toNat_eq (hself.trans htarget.symm)),
    fun hrun hodd hne => step_setPc_misaligned hrun ?_ (htarget.symm ▸ hodd),
    fun hrun htop => step_setPc_outOfRange hrun ?_⟩
  · have hne' : nnn.toNat ≠ 0xFFF := fun h => hne (BitVec.eq_of_toNat_eq h)
    omega
  · rw [htarget, htop]
    decide

theorem computedTarget_toNat (nnn : Addr12) (s : State) :
    (s.computedTarget nnn).toNat = nnn.toNat + (s.readV 0).toNat := by
  have hnnn := nnn.isLt
  have hv := (s.readV 0).isLt
  rw [State.computedTarget, State.indexOperand, BitVec.toNat_add, addrOperand_toNat,
    BitVec.toNat_setWidth_of_le (by decide), Nat.mod_eq_of_lt (by omega)]

/-- Settles O27: as for JP, with the exact sum as the target. -/
theorem jpV0AddsV0 : Obligations.JpV0AddsV0 := by
  intro nnn s
  have htarget := computedTarget_toNat nnn s
  exact ⟨Laws.RoundTrip.jpV0 nnn, _, exec_jpV0 nnn s, htarget, s.keepsBut_setPc _,
    fun hrun hgt => step_setPc_outOfRange hrun (htarget ▸ hgt),
    fun hrun hle hodd => step_setPc_misaligned hrun (htarget ▸ hle) (htarget ▸ hodd)⟩

/-! ### Skips (41_skip.md R61 to R64) -/

section
variable (s) (x y : Reg) (nn : Byte)

theorem exec_seImm : exec (.seImm x nn) s = .next (s.skipIf (s.readV x == nn)) := rfl

theorem exec_sneImm : exec (.sneImm x nn) s = .next (s.skipIf (s.readV x != nn)) := rfl

theorem exec_seReg : exec (.seReg x y) s = .next (s.skipIf (s.readV x == s.readV y)) := rfl

theorem exec_sneReg : exec (.sneReg x y) s = .next (s.skipIf (s.readV x != s.readV y)) := rfl

theorem State.keepsBut_skipIf (c : Bool) : s.KeepsBut [] (s.skipIf c) := s.keepsBut_setPc _

end

/-- A skip on equality and the skip on the same two values' difference end at two different addresses. -/
theorem skipIf_pc_of_eq {a b : Byte} (h : a = b) :
    (s.skipIf (a == b)).pc = s.pc + 4#16 ∧ (s.skipIf (a != b)).pc = s.pc + 2#16 := by
  simp [h]

theorem skipIf_pc_of_ne {a b : Byte} (h : a ≠ b) :
    (s.skipIf (a == b)).pc = s.pc + 2#16 ∧ (s.skipIf (a != b)).pc = s.pc + 4#16 := by
  simp [h]

/-- At the last fetchable pc a skip leaves the window, whether or not it skips (R65, D4). -/
theorem step_skipIf_at_top (c : Bool) (hrun : s.status = .run) (htop : s.pc = 0xFFE#16) :
    step (s.skipIf c) = .next ((s.skipIf c).takeFault .fetchOutOfRange none) := by
  refine step_setPc_outOfRange hrun ?_
  rw [htop]
  cases c <;> decide

/-- Settles O28: both handlers are `State.skipIf`, on complementary conditions. -/
theorem skipOnImmediate : Obligations.SkipOnImmediate := by
  intro x nn s
  exact ⟨Laws.RoundTrip.seImm x nn, Laws.RoundTrip.sneImm x nn, _, _, exec_seImm s x nn, exec_sneImm s x nn,
    s.keepsBut_skipIf _, s.keepsBut_skipIf _, skipIf_pc_of_eq, skipIf_pc_of_ne,
    fun hrun htop => ⟨step_skipIf_at_top _ hrun htop, step_skipIf_at_top _ hrun htop⟩⟩

/-- In families 5 and 9 a trailing nibble other than 0 has no handler (R50, D8). -/
theorem decode_error_of_trailing {l n : BitVec 4} (x y : Reg) (hl : l = 0x5#4 ∨ l = 0x9#4)
    (hn : n ≠ 0x0#4) : ∃ e, decode (packXy l x y n) = .error e := by
  have hlead := leadOf_packXy l x y n
  have hn4 := n4Of_packXy l x y n
  refine ⟨.trailingNibble (packXy l x y n), Laws.decode_of_leadOf ?_ ?_⟩
  · rw [hlead]
    obtain rfl | rfl := hl <;> decide
  · obtain rfl | rfl := hl <;> simp [lookup, hlead, hn4, hn]

/-- Settles O29: as for the immediate forms; the other trailing nibbles by `decode_error_of_trailing`. -/
theorem skipOnRegisters : Obligations.SkipOnRegisters := by
  intro x y s
  exact ⟨Laws.RoundTrip.seReg x y, Laws.RoundTrip.sneReg x y,
    fun n hn => ⟨decode_error_of_trailing x y (.inl rfl) hn, decode_error_of_trailing x y (.inr rfl) hn⟩,
    _, _, exec_seReg s x y, exec_sneReg s x y, s.keepsBut_skipIf _, s.keepsBut_skipIf _, skipIf_pc_of_eq,
    skipIf_pc_of_ne⟩

/-! ### CALL and RET (R58, R59) -/

/-- The slot CALL writes holds the return address, high byte first. -/
theorem readByte_afterCall_slot (hwf : s.mem.wf = true) (nnn : Addr12) :
    (s.afterCall nnn).readByte s.pushAddr.toNat = highByte s.returnAddr ∧
    (s.afterCall nnn).readByte (s.pushAddr.toNat + 1) = lowByte s.returnAddr :=
  ⟨State.readByte_storeWord_high (s := s.setSp s.pushAddr) hwf _ _,
    State.readByte_storeWord_low (s := s.setSp s.pushAddr) hwf _ _⟩

theorem readByte_afterCall_ne (nnn : Addr12) {a : Nat} (h : a ≠ s.pushAddr.toNat)
    (h' : a ≠ s.pushAddr.toNat + 1) : (s.afterCall nnn).readByte a = s.readByte a :=
  State.readByte_storeWord_ne (s.setSp s.pushAddr) s.returnAddr h h'

/-- Settles O25: `State.afterCall` on a stack with a free slot, and the fault on a full one. -/
theorem callPushesAndJumps : Obligations.CallPushesAndJumps := by
  intro nnn s
  refine ⟨Laws.RoundTrip.call nnn, fun hwf hsp => ?_,
    fun hfull => exec_call_full nnn (State.stackFull_iff.2 (BitVec.le_def.1 hfull))⟩
  have hfree : s.stackFull = false := State.stackFull_eq_false_iff.2 (BitVec.lt_def.1 hsp)
  have haddr := (State.pushAddr_toNat hfree).1
  obtain ⟨hhigh, hlow⟩ := readByte_afterCall_slot hwf nnn
  rw [haddr] at hhigh hlow
  refine ⟨_, exec_call_free nnn hfree, addrOperand_toNat nnn, haddr, hhigh, hlow, fun a h h' => ?_,
    fun _ => rfl, rfl, rfl⟩
  exact readByte_afterCall_ne nnn (haddr ▸ h) (haddr ▸ h')

/-- Settles O49: a full stack leaves memory as it is, and a free slot is all that a push writes. -/
theorem callStoresOnlyItsSlot : Obligations.CallStoresOnlyItsSlot := by
  intro nnn s t h
  cases exec_effect h with
  | plain hcall => exact absurd rfl (hcall nnn)
  | overflow => exact ⟨fun _ _ _ _ _ => rfl, fun _ _ => rfl, fun _ => rfl, rfl, rfl⟩
  | push hfree =>
    refine ⟨?_, fun hfull => ?_, fun _ => rfl, rfl, rfl⟩
    · rintro a rfl k
      exact readByte_afterCall_ne nnn
    · rw [State.stackFull_eq_false_iff] at hfree
      exact absurd (BitVec.le_def.1 hfull) (Nat.not_le.2 hfree)

/-- Settles O48: a handler's memory is the one it was given, but for the push of CALL. -/
theorem onlyCallStores : Obligations.OnlyCallStores := by
  intro i s t hi h a
  cases exec_effect h with
  | plain _ _ _ hmem => rw [State.readByte, hmem, State.readByte]
  | overflow | push => exact absurd rfl (hi _)
  | underflow | pop | outside => rfl

/-- Settles O26: `State.afterRet` where the slot lies inside memory, and one fault on each side. -/
theorem retPopsIntoPc : Obligations.RetPopsIntoPc := by
  refine ⟨rfl, fun s => ⟨fun hlo hhi => ?_, fun hempty => ?_, fun hgt => ?_⟩⟩
  · rw [BitVec.le_def, BitVec.toNat_ofNat] at hlo hhi
    exact ⟨_, exec_ret_pop (State.stackEmpty_eq_false_iff.2 hlo) (by omega), rfl, sub_two_toNat (by omega),
      fun _ => rfl, fun _ => rfl, rfl, rfl⟩
  · exact exec_ret_empty (State.stackEmpty_iff.2 (BitVec.lt_def.1 hempty))
  · rw [BitVec.lt_def, BitVec.toNat_ofNat] at hgt
    exact exec_ret_outside (State.stackEmpty_eq_false_iff.2 (by omega)) (by omega)

/-! ### CALL and then RET, or a fetch, at the slot it pushed -/

theorem stackFull_eq_false_of_legalSp (h : legalSp s.sp) (hne : s.sp ≠ 0xEFE#16) : s.stackFull = false := by
  cases hf : s.stackFull with
  | true => exact absurd (eq_spMax_of_full h hf) hne
  | false => rfl

/-- The two bytes pushed are the return address again. -/
theorem word_of_pushed_slot (hwf : s.mem.wf = true) (nnn : Addr12) :
    wordOfBytes ((s.afterCall nnn).readByte s.pushAddr.toNat)
      ((s.afterCall nnn).readByte (s.pushAddr.toNat + 1)) = s.returnAddr := by
  obtain ⟨hhigh, hlow⟩ := readByte_afterCall_slot hwf nnn
  rw [hhigh, hlow, wordOfBytes_bytes]

/-- Settles O45: the RET pops the slot that the CALL pushed. -/
theorem callThenRetReturns : Obligations.CallThenRetReturns := by
  intro s nnn hwf hlegal hne
  have hfree := stackFull_eq_false_of_legalSp hlegal hne
  obtain ⟨haddr, hinside⟩ := State.pushAddr_toNat hfree
  have hnonempty : (s.afterCall nnn).stackEmpty = false := by
    rw [legalSp_iff] at hlegal
    exact State.stackEmpty_eq_false_iff.2 (show 0xEA0 ≤ s.pushAddr.toNat by omega)
  refine ⟨_, _, exec_call_free nnn hfree, addrOperand_toNat nnn, exec_ret_pop hnonempty hinside,
    word_of_pushed_slot hwf nnn, BitVec.add_sub_cancel s.sp 2#16, rfl, rfl, rfl, fun a h h' => ?_⟩
  exact readByte_afterCall_ne nnn (haddr ▸ h) (haddr ▸ h')

/-- Settles O46: the target is the slot's address, even and inside the window, so the fetch reads the
slot. -/
theorem fetchSeesThePush : Obligations.FetchSeesThePush := by
  intro s nnn hwf hlegal hne hself
  have hfree := stackFull_eq_false_of_legalSp hlegal hne
  have haddr := (State.pushAddr_toNat hfree).1
  have hpc : (s.afterCall nnn).pc.toNat = s.pushAddr.toNat :=
    (addrOperand_toNat nnn).trans (hself.trans haddr.symm)
  refine ⟨_, exec_call_free nnn hfree, ?_⟩
  rw [legalSp_iff] at hlegal
  rw [State.stackFull_eq_false_iff] at hfree
  rw [State.fetch_window (by omega) (by omega), hpc, word_of_pushed_slot hwf]
  rfl

end Sys2Proof.Machine
end

section
/-! The flag handlers of family 8 (43_alu.md R74 to R78) and RND (42_register_immediate.md R69). A flag
handler is `(s.writeResultFlag x b f).advance`: the lemmas on it say, for any result and flag, which registers
it leaves. -/

namespace Sys2Proof.Machine

open Sys2Proof

variable (s : State)

/-! ### A handler that writes a result and then the flag -/

theorem State.readV_writeResultFlag_result {x : Reg} (b : Byte) (f : Bool) (h : x ≠ Reg.vf) :
    ((s.writeResultFlag x b f).advance).readV x = b := by
  rw [State.readV_advance, State.readV_writeResultFlag, if_neg h, if_pos rfl]

/-- The flag is written last, so VF holds it for x = 15 too (D7). -/
theorem State.readV_writeResultFlag_vf (x : Reg) (b : Byte) (f : Bool) :
    ((s.writeResultFlag x b f).advance).readV 15 = flagByte f := by
  rw [State.readV_advance, State.readV_writeResultFlag, if_pos rfl]

theorem State.keepsBut_writeResultFlag_advance (x : Reg) (b : Byte) (f : Bool) :
    s.KeepsBut [x, 15] (s.writeResultFlag x b f).advance where
  regs r hr := by
    have hne : r ≠ x ∧ r ≠ 15 := by simpa using hr
    rw [State.readV_advance, State.readV_writeResultFlag, if_neg hne.2, if_neg hne.1]
  i := rfl
  sp := rfl
  mem _ := rfl
  status := rfl

/-! ### The handlers' equations -/

section
variable (x y : Reg)

theorem exec_addReg : exec (.addReg x y) s = .next
    (s.writeResultFlag x (s.readV x + s.readV y) (carryFlag (s.readV x) (s.readV y))).advance := rfl

theorem exec_subReg : exec (.subReg x y) s = .next
    (s.writeResultFlag x (s.readV x - s.readV y) (noBorrowFlag (s.readV x) (s.readV y))).advance := rfl

theorem exec_shrReg : exec (.shrReg x y) s = .next
    (s.writeResultFlag x (s.readV x >>> 1) (lsbFlag (s.readV x))).advance := rfl

theorem exec_subnReg : exec (.subnReg x y) s = .next
    (s.writeResultFlag x (s.readV y - s.readV x) (noBorrowFlag (s.readV y) (s.readV x))).advance := rfl

theorem exec_shlReg : exec (.shlReg x y) s = .next
    (s.writeResultFlag x (s.readV x <<< 1) (msbFlag (s.readV x))).advance := rfl

end

/-! ### Results and flags as numbers -/

section
variable (a b : Byte)

theorem flagByte_carryFlag :
    flagByte (carryFlag a b) = if a.toNat + b.toNat > 255 then 0x01#8 else 0x00#8 := by
  simp only [flagByte, carryFlag, decide_eq_true_eq]

theorem flagByte_noBorrowFlag :
    flagByte (noBorrowFlag a b) = if a.toNat ≥ b.toNat then 0x01#8 else 0x00#8 := by
  simp only [flagByte, noBorrowFlag, decide_eq_true_eq]

theorem flagByte_toNat (f : Bool) : (flagByte f).toNat = f.toNat := by
  cases f <;> rfl

theorem flagByte_lsbFlag_toNat : (flagByte (lsbFlag a)).toNat = a.toNat % 2 := by
  rw [flagByte_toNat, lsbFlag, BitVec.getElem_eq_testBit_toNat, Nat.toNat_testBit, pow_zero, Nat.div_one]

theorem flagByte_msbFlag_toNat : (flagByte (msbFlag a)).toNat = a.toNat / 128 := by
  have hlt := a.isLt
  rw [flagByte_toNat, msbFlag, BitVec.getElem_eq_testBit_toNat, Nat.toNat_testBit]
  omega

/-- The difference of two bytes is the exact difference modulo 256 (R75, R77). -/
theorem sub_toNat_eq_emod : ((a - b).toNat : Int) = ((a.toNat : Int) - b.toNat) % 256 := by
  have ha := a.isLt
  have hb := b.isLt
  rw [BitVec.toNat_sub]
  omega

theorem shiftRight_one_toNat : (a >>> 1).toNat = a.toNat / 2 := by
  rw [BitVec.toNat_ushiftRight, Nat.shiftRight_eq_div_pow, pow_one]

theorem shiftLeft_one_toNat : (a <<< 1).toNat = a.toNat * 2 % 256 := by
  rw [BitVec.toNat_shiftLeft, Nat.shiftLeft_eq, pow_one]

end

/-! ### The five handlers -/

/-- Settles O35: the result is the 8-bit sum, the flag the carry. -/
theorem addRegSetsCarry : Obligations.AddRegSetsCarry := by
  intro x y s
  exact ⟨Laws.RoundTrip.addReg x y, _, exec_addReg s x y,
    fun hx => s.readV_writeResultFlag_result _ _ hx ▸ BitVec.toNat_add _ _,
    s.readV_writeResultFlag_vf x _ _ ▸ flagByte_carryFlag _ _, rfl,
    s.keepsBut_writeResultFlag_advance x _ _⟩

/-- Settles O36: the result is the 8-bit difference, the flag NOT borrow. -/
theorem subRegSetsNotBorrow : Obligations.SubRegSetsNotBorrow := by
  intro x y s
  exact ⟨Laws.RoundTrip.subReg x y, _, exec_subReg s x y,
    fun hx => s.readV_writeResultFlag_result _ _ hx ▸ sub_toNat_eq_emod _ _,
    s.readV_writeResultFlag_vf x _ _ ▸ flagByte_noBorrowFlag _ _, rfl,
    s.keepsBut_writeResultFlag_advance x _ _⟩

/-- Settles O37: the result is half of `V[x]`, the flag its bit 0. -/
theorem shrShiftsVx : Obligations.ShrShiftsVx := by
  intro x y s
  exact ⟨Laws.RoundTrip.shrReg x y, _, exec_shrReg s x y,
    fun hx => s.readV_writeResultFlag_result _ _ hx ▸ shiftRight_one_toNat _,
    s.readV_writeResultFlag_vf x _ _ ▸ flagByte_lsbFlag_toNat _, rfl,
    s.keepsBut_writeResultFlag_advance x _ _⟩

/-- Settles O38: as for SUB, with the operands exchanged. -/
theorem subnRegSetsNotBorrow : Obligations.SubnRegSetsNotBorrow := by
  intro x y s
  exact ⟨Laws.RoundTrip.subnReg x y, _, exec_subnReg s x y,
    fun hx => s.readV_writeResultFlag_result _ _ hx ▸ sub_toNat_eq_emod _ _,
    s.readV_writeResultFlag_vf x _ _ ▸ flagByte_noBorrowFlag _ _, rfl,
    s.keepsBut_writeResultFlag_advance x _ _⟩

/-- Settles O39: the result is twice `V[x]` modulo 256, the flag its bit 7. -/
theorem shlShiftsVx : Obligations.ShlShiftsVx := by
  intro x y s
  exact ⟨Laws.RoundTrip.shlReg x y, _, exec_shlReg s x y,
    fun hx => s.readV_writeResultFlag_result _ _ hx ▸ shiftLeft_one_toNat _,
    s.readV_writeResultFlag_vf x _ _ ▸ flagByte_msbFlag_toNat _, rfl,
    s.keepsBut_writeResultFlag_advance x _ _⟩

/-! ### RND -/

theorem exec_rnd (x : Reg) (nn : Byte) :
    exec (.rnd x nn) s = .next ((s.writeV x (s.draw &&& nn)).advance).drawTaken := rfl

/-- Settles O32: the byte written is the masked draw, so it has no bit outside the mask. -/
theorem rndMasksTheDraw : Obligations.RndMasksTheDraw := by
  intro x nn s
  have hvalue : (((s.writeV x (s.draw &&& nn)).advance).drawTaken).readV x = s.draw &&& nn :=
    s.readV_writeV_advance_same x _
  obtain ⟨hregs, hI, hsp, hmem, hstatus⟩ := s.keepsBut_writeV_advance x (s.draw &&& nn)
  refine ⟨Laws.RoundTrip.rnd x nn, _, exec_rnd s x nn, hvalue, ?_, fun hzero => ?_, rfl, rfl,
    hregs, hI, hsp, hmem, hstatus⟩
  · rw [hvalue, BitVec.and_assoc, BitVec.and_not_self]
    exact BitVec.and_zero
  · rw [hvalue, hzero, BitVec.and_zero]

end Sys2Proof.Machine
end

section
/-! What an instruction reads and writes among the general registers (10_state.md R15, R16), by two runs
that differ in the registers alone. `exec_agreeOn` compares them for every handler; that a handler changes
no register but its destinations is the comparison of a run with itself. -/

namespace Sys2Proof.Machine

open Sys2Proof

/-! ### Two states that differ in the registers -/

/-- The same state with other general registers. -/
def State.withV (s : State) (V' : Vector Byte 16) : State := { s with V := V' }

/-- `t` and `t'` hold the same values in `regs`, `t'` holds those of `V'` elsewhere, and the two differ in
nothing but the general registers. -/
structure State.AgreeOn (regs : List Reg) (V' : Vector Byte 16) (t t' : State) : Prop where
  written : ∀ r ∈ regs, t'.readV r = t.readV r
  kept : ∀ r, r ∉ regs → t'.readV r = (t.withV V').readV r
  rest : t'.withV t.V = t

variable {s t t' : State} {i : Instr} {V' : Vector Byte 16} {regs : List Reg}

theorem State.fields_of_withV_eq (h : t'.withV V' = t) :
    t'.I = t.I ∧ t'.pc = t.pc ∧ t'.sp = t.sp ∧ t'.mem = t.mem ∧ t'.status = t.status ∧
      t'.draws = t.draws := by
  subst h
  exact ⟨rfl, rfl, rfl, rfl, rfl, rfl⟩

theorem State.agreeOn_withV : State.AgreeOn [] V' t (t.withV V') :=
  ⟨nofun, fun _ _ => rfl, rfl⟩

theorem State.agreeOn_writeV (x : Reg) (b : Byte) :
    State.AgreeOn [x] V' (s.writeV x b) ((s.withV V').writeV x b) where
  written r hr := by
    rw [State.readV_writeV, State.readV_writeV, List.mem_singleton.1 hr, if_pos rfl, if_pos rfl]
  kept r hr := by
    rw [State.readV_writeV, if_neg (List.ne_of_not_mem_cons hr)]
    rfl
  rest := rfl

theorem State.agreeOn_writeResultFlag (x : Reg) (b : Byte) (f : Bool) :
    State.AgreeOn [x, Reg.vf] V' (s.writeResultFlag x b f) ((s.withV V').writeResultFlag x b f) where
  written r hr := by
    obtain rfl | hr := List.mem_cons.1 hr
    · simp
    · simp [List.mem_singleton.1 hr]
  kept r hr := by
    have hne : r ≠ x ∧ r ≠ Reg.vf := by simpa using hr
    rw [State.readV_writeResultFlag, if_neg hne.2, if_neg hne.1]
    rfl
  rest := rfl

theorem State.AgreeOn.advance (h : State.AgreeOn regs V' t t') :
    State.AgreeOn regs V' t.advance t'.advance :=
  ⟨h.written, h.kept, congrArg State.advance h.rest⟩

theorem State.AgreeOn.drawTaken (h : State.AgreeOn regs V' t t') :
    State.AgreeOn regs V' t.drawTaken t'.drawTaken :=
  ⟨h.written, h.kept, congrArg State.drawTaken h.rest⟩

/-! ### Two runs of one handler -/

theorem exec_call_agreeOn {nnn : Addr12} (h : exec (.call nnn) s = .next t) :
    ∃ t', exec (.call nnn) (s.withV V') = .next t' ∧ State.AgreeOn [] V' t t' := by
  cases exec_effect h with
  | plain hcall => exact absurd rfl (hcall nnn)
  | overflow hfull => exact ⟨_, exec_call_full (s := s.withV V') nnn hfull, State.agreeOn_withV⟩
  | push hfree => exact ⟨_, exec_call_free (s := s.withV V') nnn hfree, State.agreeOn_withV⟩

theorem exec_ret_agreeOn (h : exec .ret s = .next t) :
    ∃ t', exec .ret (s.withV V') = .next t' ∧ State.AgreeOn [] V' t t' := by
  cases exec_effect h with
  | plain _ hret => exact absurd rfl hret
  | underflow hempty => exact ⟨_, exec_ret_empty (s := s.withV V') hempty, State.agreeOn_withV⟩
  | pop hne hm => exact ⟨_, exec_ret_pop (s := s.withV V') hne hm, State.agreeOn_withV⟩
  | outside hne hm => exact ⟨_, exec_ret_outside (s := s.withV V') hne hm, State.agreeOn_withV⟩

theorem computedTarget_withV (nnn : Addr12) (h : (s.withV V').readV 0 = s.readV 0) :
    (s.withV V').computedTarget nnn = s.computedTarget nnn := by
  rw [State.computedTarget, State.indexOperand, h]
  rfl

theorem exec_agreeOn (hreads : ∀ r ∈ readsV i, (s.withV V').readV r = s.readV r) (h : exec i s = .next t) :
    ∃ t', exec i (s.withV V') = .next t' ∧ State.AgreeOn (writesV i) V' t t' := by
  cases i with
  | call nnn => exact exec_call_agreeOn h
  | ret => exact exec_ret_agreeOn h
  | jp nnn | ldI nnn =>
    cases h
    exact ⟨_, rfl, State.agreeOn_withV⟩
  | jpV0 nnn =>
    cases h
    rw [exec_jpV0, computedTarget_withV nnn (hreads 0 (.head _))]
    exact ⟨_, rfl, State.agreeOn_withV⟩
  | seImm x nn | sneImm x nn =>
    cases h
    simp only [exec_seImm, exec_sneImm, hreads x (.head _)]
    exact ⟨_, rfl, State.agreeOn_withV⟩
  | seReg x y | sneReg x y =>
    cases h
    simp only [exec_seReg, exec_sneReg, hreads x (.head _), hreads y (.tail _ (.head _))]
    exact ⟨_, rfl, State.agreeOn_withV⟩
  | ldImm x nn =>
    cases h
    exact ⟨_, rfl, (State.agreeOn_writeV x nn).advance⟩
  | rnd x nn =>
    cases h
    exact ⟨_, rfl, (State.agreeOn_writeV x _).advance.drawTaken⟩
  | addImm x nn =>
    cases h
    simp only [exec_addImm, hreads x (.head _)]
    exact ⟨_, rfl, (State.agreeOn_writeV x _).advance⟩
  | ldReg x y =>
    cases h
    simp only [exec_ldReg, hreads y (.head _)]
    exact ⟨_, rfl, (State.agreeOn_writeV x _).advance⟩
  | orReg x y | andReg x y | xorReg x y =>
    cases h
    simp only [exec_orReg, exec_andReg, exec_xorReg, hreads x (.head _), hreads y (.tail _ (.head _))]
    exact ⟨_, rfl, (State.agreeOn_writeV x _).advance⟩
  | shrReg x y | shlReg x y =>
    cases h
    simp only [exec_shrReg, exec_shlReg, hreads x (.head _)]
    exact ⟨_, rfl, (State.agreeOn_writeResultFlag x _ _).advance⟩
  | addReg x y | subReg x y | subnReg x y =>
    cases h
    simp only [exec_addReg, exec_subReg, exec_subnReg, hreads x (.head _), hreads y (.tail _ (.head _))]
    exact ⟨_, rfl, (State.agreeOn_writeResultFlag x _ _).advance⟩

/-! ### Destinations and sources (R16) -/

/-- A run compared with itself: what `exec_agreeOn` says of the registers not written. -/
theorem exec_keeps_readV (h : exec i s = .next t) {r : Reg} (hr : r ∉ writesV i) : t.readV r = s.readV r := by
  obtain ⟨t', ht', hagree⟩ := exec_agreeOn (V' := s.V) (fun _ _ => rfl) h
  have hsame : exec i s = .next t' := ht'
  cases hsame.symm.trans h
  exact hagree.kept r hr

/-- Settles O50: the frame of every handler at once, `exec_keeps_readV`. -/
theorem onlyDestinationsChange : Obligations.OnlyDestinationsChange := fun _ _ _ h _ => exec_keeps_readV h

/-- Settles O53: the two runs of `exec_agreeOn`, field by field. -/
theorem onlySourcesMatter : Obligations.OnlySourcesMatter := by
  intro i s t V' hreads h
  obtain ⟨t', ht', hwritten, hkept, hrest⟩ := exec_agreeOn hreads h
  exact ⟨t', ht', hwritten, hkept, State.fields_of_withV_eq hrest⟩

/-! ### VF (R15) -/

theorem flagByte_eq_zero_or_one (f : Bool) : flagByte f = 0x00#8 ∨ flagByte f = 0x01#8 := by
  cases f <;> decide

/-- A register that is read is V[0], by Bnnn, or one that the encoding names. -/
theorem readsV_named {r : Reg} (h : r ∈ readsV i) : r = 0 ∨ Operand.reg r.val ∈ i.operands := by
  cases i with
  | ret | jp | call | ldI | ldImm | rnd => cases h
  | jpV0 => exact .inl (List.mem_singleton.1 h)
  | seImm x nn | sneImm x nn | addImm x nn | shrReg x y | shlReg x y =>
    obtain rfl := List.mem_singleton.1 h
    exact .inr (.head _)
  | ldReg x y =>
    obtain rfl := List.mem_singleton.1 h
    exact .inr (.tail _ (.head _))
  | _ x y =>
    obtain rfl | rfl := List.mem_pair.1 h
    · exact .inr (.head _)
    · exact .inr (.tail _ (.head _))

/-- Settles O52: the flag byte; VF among the registers not written; and the two runs of `exec_agreeOn` with
another VF, which no register named reads. -/
theorem flagRegisterRule : Obligations.FlagRegisterRule := by
  refine ⟨fun x y s t h => ?_, fun i s t hvf h => exec_keeps_readV h hvf, fun i s t b hnames h => ?_⟩
  · obtain h | h | h | h | h := h <;> cases h <;> rw [State.readV_writeResultFlag_vf] <;>
      exact flagByte_eq_zero_or_one _
  · have hother : ∀ r, r ≠ 15 → (s.writeV 15 b).readV r = s.readV r := fun r hr =>
      (s.readV_writeV 15 r b).trans (if_neg hr)
    have hreads : ∀ r ∈ readsV i, (s.writeV 15 b).readV r = s.readV r := fun r hr => by
      apply hother
      rintro rfl
      obtain h0 | hnamed := readsV_named hr
      · cases h0
      · exact hnames 15 hnamed rfl
    obtain ⟨t', ht', hwritten, hkept, hrest⟩ := exec_agreeOn (V' := (s.writeV 15 b).V) hreads h
    obtain ⟨hI, hpc, hsp, hmem, hstatus, -⟩ := State.fields_of_withV_eq hrest
    refine ⟨t', ht', fun r hr => ?_, hI, hpc, hsp, hmem, hstatus⟩
    by_cases hw : r ∈ writesV i
    · exact hwritten r hw
    · calc t'.readV r = (s.writeV 15 b).readV r := hkept r hw
        _ = s.readV r := hother r hr
        _ = t.readV r := (exec_keeps_readV h hw).symm

end Sys2Proof.Machine
end

section
/-! What a step does with pc, `I`, `sp`, the status and the draws (10_state.md R17 to R23), how memory reaches
it (20_memory.md R29), and that canonical memories are equal data. -/

namespace Sys2Proof.Machine

open Sys2Proof

variable {s t t' : State} {i : Instr}

/-! ### The special state (R17, R21, R23, R69) -/

theorem exec_keeps_draws (hi : ∀ x nn, i ≠ .rnd x nn) (h : exec i s = .next t) : t.draws = s.draws := by
  cases i with
  | rnd x nn => exact absurd rfl (hi x nn)
  | call nnn =>
    obtain ⟨-, -, -, -, hdraws⟩ := callStoresOnlyItsSlot nnn s t h
    exact hdraws
  | ret =>
    cases exec_effect h with
    | plain _ hret => exact absurd rfl hret
    | underflow | pop | outside => rfl
  | _ =>
    cases h
    rfl

theorem exec_keeps_sp_status (hcall : ∀ nnn, i ≠ .call nnn) (hret : i ≠ .ret) (h : exec i s = .next t) :
    t.sp = s.sp ∧ t.status = s.status := by
  cases exec_effect h with
  | plain _ _ hsp _ hstatus => exact ⟨hsp, hstatus⟩
  | overflow | push => exact absurd rfl (hcall _)
  | underflow | pop | outside => exact absurd rfl hret

theorem exec_status_cases (h : exec i s = .next t) :
    t.status = s.status ∨ ∃ c op, t.status = .fault c s.pc op := by
  cases exec_effect h with
  | plain _ _ _ _ hstatus => exact .inl hstatus
  | push | pop => exact .inl rfl
  | overflow | underflow | outside => exact .inr ⟨_, _, rfl⟩

/-- Settles O51: one frame lemma for each of the four fields. -/
theorem specialStateFrame : Obligations.SpecialStateFrame := fun _ _ _ h =>
  ⟨fun hi => exec_keeps_I hi h, fun hcall hret => exec_keeps_sp_status hcall hret h, exec_status_cases h,
    fun hi => exec_keeps_draws hi h⟩

/-! ### The advance of pc (R20) -/

/-- Every pc a handler other than RET's writes. -/
theorem exec_pc_cases (hret : i ≠ .ret) (h : exec i s = .next t) (hrun : t.status = .run) :
    t.pc = s.pc + 2#16 ∨ t.pc = s.pc + 4#16 ∨
      (t.pc.toNat ≤ 0x10FE ∧ ∃ nnn, i = .jp nnn ∨ i = .call nnn ∨ i = .jpV0 nnn) := by
  cases i with
  | ret => exact absurd rfl hret
  | call nnn =>
    have hle := addrOperand_toNat_le nnn
    cases exec_effect h with
    | plain hcall => exact absurd rfl (hcall nnn)
    | overflow => cases hrun
    | push => exact .inr (.inr ⟨hle.trans (by decide), nnn, .inr (.inl rfl)⟩)
  | jp nnn =>
    cases h
    exact .inr (.inr ⟨(addrOperand_toNat_le nnn).trans (by decide), nnn, .inl rfl⟩)
  | jpV0 nnn =>
    cases h
    have hnnn := nnn.isLt
    have hv := (s.readV 0).isLt
    refine .inr (.inr ⟨?_, nnn, .inr (.inr rfl)⟩)
    rw [State.setPc_pc, computedTarget_toNat]
    omega
  | seImm | sneImm | seReg | sneReg =>
    cases h
    rw [State.skipIf_pc]
    split
    · exact .inr (.inl rfl)
    · exact .inl rfl
  | _ =>
    cases h
    exact .inl rfl

theorem State.fetchInstr_ok {op : Word} (hf : s.fetch = .ok op) (hd : decode op = .ok i) :
    s.fetchInstr = .ok i := by
  simp [State.fetchInstr, hf, hd]

/-- An advance from a fetchable pc is exact (R20). -/
theorem add_toNat_of_le_pcMax {w : Word} (h : w ≤ Config.pcMax) {k : Word} (hk : k.toNat ≤ 4) :
    (w + k).toNat = w.toNat + k.toNat := by
  rw [BitVec.le_def, BitVec.toNat_ofNat] at h
  rw [BitVec.toNat_add, Nat.mod_eq_of_lt (by omega)]

/-- Settles O55: a step that ends in RUN has run a handler at a fetchable pc, whose advances are exact. -/
theorem pcNeverWraps : Obligations.PcNeverWraps := by
  intro s t hret h hrun
  obtain ⟨-, ⟨c, -, rfl⟩ | ⟨op, e, -, -, rfl⟩ | ⟨op, i, hf, hd, hexec⟩⟩ := step_next_cases h
  · cases hrun
  · cases hrun
  · have hfetchInstr := State.fetchInstr_ok hf hd
    have hi : i ≠ .ret := fun e => hret (e ▸ hfetchInstr)
    obtain ⟨hle, -, -⟩ := State.fetch_eq_ok hf
    have h2 := add_toNat_of_le_pcMax hle (k := 2#16) (by decide)
    have h4 := add_toNat_of_le_pcMax hle (k := 4#16) (by decide)
    rw [BitVec.le_def, BitVec.toNat_ofNat] at hle
    rw [BitVec.toNat_ofNat] at h2 h4
    obtain hpc | hpc | ⟨hbound, hjump⟩ := exec_pc_cases hi hexec hrun
    · exact ⟨by rw [hpc]; omega, .inl (hpc ▸ h2)⟩
    · exact ⟨by rw [hpc]; omega, .inr (.inl (hpc ▸ h4))⟩
    · exact ⟨hbound, .inr (.inr ⟨i, hfetchInstr, hjump⟩)⟩

/-! ### Memory in a step (R29, 41_skip.md R65) -/

/-- The same state with another memory. -/
def State.withMem (s : State) (m : Memory) : State := { s with mem := m }

theorem State.fields_of_withMem_eq {m : Memory} (h : t'.withMem m = t) :
    t'.V = t.V ∧ t'.I = t.I ∧ t'.pc = t.pc ∧ t'.sp = t.sp ∧ t'.status = t.status ∧ t'.draws = t.draws := by
  subst h
  exact ⟨rfl, rfl, rfl, rfl, rfl, rfl⟩

/-- A handler other than RET's run on another memory: the two next states differ in memory alone. -/
theorem exec_withMem (hret : i ≠ .ret) (h : exec i s = .next t) (m : Memory) :
    ∃ t', exec i (s.withMem m) = .next t' ∧ t'.withMem t.mem = t := by
  cases i with
  | ret => exact absurd rfl hret
  | call nnn =>
    cases exec_effect h with
    | plain hcall => exact absurd rfl (hcall nnn)
    | overflow hfull => exact ⟨_, exec_call_full (s := s.withMem m) nnn hfull, rfl⟩
    | push hfree => exact ⟨_, exec_call_free (s := s.withMem m) nnn hfree, rfl⟩
  | _ =>
    cases h
    exact ⟨_, rfl, rfl⟩

/-- The step on another memory in which the fetch answers the same. -/
theorem step_withMem {m : Memory} (hret : s.fetchInstr ≠ .ok .ret) (hfetch : (s.withMem m).fetch = s.fetch)
    (h : step s = .next t) : ∃ t', step (s.withMem m) = .next t' ∧ t'.withMem t.mem = t := by
  obtain ⟨hrun, ⟨c, hf, rfl⟩ | ⟨op, e, hf, hd, rfl⟩ | ⟨op, i, hf, hd, hexec⟩⟩ := step_next_cases h
  · exact ⟨_, step_of_fetch_error (s := s.withMem m) hrun (hfetch.trans hf), rfl⟩
  · exact ⟨_, step_of_decode_error (s := s.withMem m) hrun (hfetch.trans hf) hd, rfl⟩
  · have hi : i ≠ .ret := fun e => hret (e ▸ State.fetchInstr_ok hf hd)
    rw [step_of_decode_ok (s := s.withMem m) hrun (hfetch.trans hf) hd]
    exact exec_withMem hi hexec m

/-- Settles O56: the two runs of `step_withMem`, field by field. -/
theorem memoryMattersOnlyToFetchAndRet : Obligations.MemoryMattersOnlyToFetchAndRet := by
  intro s t m hret hfetch h
  obtain ⟨t', ht', hrest⟩ := step_withMem hret hfetch h
  exact ⟨t', ht', State.fields_of_withMem_eq hrest⟩

/-! ### Canonical memories (log 5) -/

theorem Memory.risingFrom_cons_iff {lo : Nat} {c : Host.Cell} {m : Memory} :
    Memory.risingFrom lo (c :: m) = true ↔ lo ≤ c.1 ∧ Memory.risingFrom (c.1 + 1) m = true := by
  rw [Memory.risingFrom, Bool.and_eq_true, decide_eq_true_eq]

theorem Memory.readByte_cons_self (c : Host.Cell) (m : Memory) : Memory.readByte (c :: m) c.1 = c.2 :=
  if_pos rfl

theorem Memory.readByte_cons_ne {c : Host.Cell} {a : Nat} (m : Memory) (h : c.1 ≠ a) :
    Memory.readByte (c :: m) a = Memory.readByte m a := if_neg h

/-- The cells of a canonical memory, from `lo` on: rising, inside memory, none as an unlisted one reads. -/
def Memory.CanonicalFrom (lo : Nat) (m : Memory) : Prop :=
  Memory.risingFrom lo m = true ∧ ∀ c ∈ m, c.1 < Config.memSize ∧ c.2 ≠ Memory.unlisted

theorem Memory.CanonicalFrom.uncons {lo : Nat} {c : Host.Cell} {m : Memory}
    (h : Memory.CanonicalFrom lo (c :: m)) :
    c.1 < 4096 ∧ c.2 ≠ Memory.unlisted ∧ Memory.CanonicalFrom (c.1 + 1) m := by
  obtain ⟨hrising, hcells⟩ := h
  obtain ⟨hlt, hlisted⟩ := hcells c (.head _)
  exact ⟨hlt, hlisted, (Memory.risingFrom_cons_iff.1 hrising).2, fun d hd => hcells d (.tail _ hd)⟩

theorem Memory.CanonicalFrom.from_head {lo : Nat} {c : Host.Cell} {m : Memory}
    (h : Memory.CanonicalFrom lo (c :: m)) : Memory.CanonicalFrom c.1 (c :: m) :=
  ⟨Memory.risingFrom_cons_iff.2 ⟨le_rfl, (Memory.risingFrom_cons_iff.1 h.1).2⟩, h.2⟩

/-- Two memories that read alike inside 0x000..0xFFF. -/
def Memory.ReadAlike (m m' : Memory) : Prop := ∀ a, a < 4096 → m.readByte a = m'.readByte a

/-- The lowest cell of a canonical memory is seen by a read, so it is no higher in a memory that reads
alike. -/
theorem Memory.CanonicalFrom.head_listed {lo lo' : Nat} {c : Host.Cell} {m m' : Memory}
    (h : Memory.CanonicalFrom lo (c :: m)) (h' : Memory.CanonicalFrom lo' m')
    (heq : Memory.ReadAlike (c :: m) m') : ¬ c.1 < lo' := by
  intro hlt
  obtain ⟨hin, hlisted, -⟩ := h.uncons
  apply hlisted
  rw [← Memory.readByte_of_lt h'.1 hlt, ← heq c.1 hin, Memory.readByte_cons_self]

theorem Memory.canonicalFrom_nil (lo : Nat) : Memory.CanonicalFrom lo [] := ⟨rfl, nofun⟩

/-- Induction along both lists: their first cells have one address, since neither is lower, and then one
byte; below it and at it the two tails read as unlisted. -/
theorem Memory.eq_of_readAlike : ∀ {m m' : Memory} {lo lo' : Nat}, Memory.CanonicalFrom lo m →
    Memory.CanonicalFrom lo' m' → Memory.ReadAlike m m' → m = m'
  | [], [], _, _, _, _, _ => rfl
  | c :: m, [], _, _, h, _, heq =>
    absurd (Nat.lt_succ_self _) (h.head_listed (Memory.canonicalFrom_nil (c.1 + 1)) heq)
  | [], d :: m', _, _, _, h', heq =>
    absurd (Nat.lt_succ_self _)
      (h'.head_listed (Memory.canonicalFrom_nil (d.1 + 1)) fun a ha => (heq a ha).symm)
  | c :: m, d :: m', lo, lo', h, h', heq => by
    have hnot_lt := h.head_listed h'.from_head heq
    have hnot_gt := h'.head_listed h.from_head fun a ha => (heq a ha).symm
    have haddr : c.1 = d.1 := by omega
    obtain ⟨hin, -, htail⟩ := h.uncons
    obtain ⟨-, -, htail'⟩ := h'.uncons
    have hbyte : c.2 = d.2 := by
      have hread := heq c.1 hin
      rwa [Memory.readByte_cons_self, haddr, Memory.readByte_cons_self] at hread
    have htails : Memory.ReadAlike m m' := by
      intro a ha
      obtain hlow | hhigh := lt_or_ge a (c.1 + 1)
      · rw [Memory.readByte_of_lt htail.1 hlow, Memory.readByte_of_lt htail'.1 (haddr ▸ hlow)]
      · have hread := heq a ha
        rwa [Memory.readByte_cons_ne m (by omega), Memory.readByte_cons_ne m' (by omega)] at hread
    rw [Prod.ext haddr hbyte, Memory.eq_of_readAlike htail htail' htails]

/-- Settles O47: a canonical memory is canonical from address 0. -/
theorem canonicalMemoryIsUnique : Obligations.CanonicalMemoryIsUnique := by
  intro m m' h h' heq
  exact Memory.eq_of_readAlike ((Memory.wf_iff m).1 h) ((Memory.wf_iff m').1 h') heq

end Sys2Proof.Machine
end
